-- ==== Sys2Proof/Word.lean ====
section
/-! DEFINITION. The word types of the machine (spec/00_scope.md R9, R12, R13). All values are unsigned. -/

namespace Sys2Proof

/-- A byte of memory, a data register, a timer (R9). -/
abbrev Byte := BitVec 8

/-- A 16-bit value: the PC, the address register, a stack slot, an instruction word (R9). -/
abbrev Word := BitVec 16

/-- The 12-bit address `NNN` of an instruction word (R301). -/
abbrev Addr12 := BitVec 12

/-- The 4-bit immediate `N` of an instruction word (R301). -/
abbrev Nibble := BitVec 4

/-- The index of a data register V0 to VF (R102). -/
abbrev Reg := Fin 16

end Sys2Proof
end

