-- ==== Sys2Proof/Config.lean ====
section
/-! DEFINITION. What is fixed for the machine (spec/00_scope.md R9) and the values the spec leaves open.
An `opaque` constant has no body: nothing can be proved of its value, so a claim holds for every value. -/

namespace Sys2Proof.Config

/-- MEM_SIZE: bytes of memory, addresses 0x000 to 0xFFF (R9). -/
abbrev memSize : Nat := 4096

/-- PROG_BASE: where LOAD puts a program and where reset points the PC (R9, R203). -/
abbrev progBase : Nat := 0x200

/-- FONT_SIZE: 16 glyphs of 5 bytes from address 0 (R9, R201). -/
abbrev fontSize : Nat := 80

/-- MAX_IMAGE: the largest program image (R9, R10). -/
abbrev maxImage : Nat := 3584

/-- FONT, the 80 font bytes: an OPEN parameter of the spec (R9, D22, U17; log 1). -/
opaque font : Fin 80 → Byte

/-- The random byte that draw number `n` yields: any byte, no law between draws (R18, R590, R935, D13; log 2). -/
opaque randomByte : Nat → Byte

/-- A byte the spec leaves unspecified after a fault: draw number and place (R910, U6; log 3). -/
opaque freeByte : Nat → Nat → Byte

/-- A 16-bit value the spec leaves unspecified after a fault: draw number and place (R910, U6; log 3). -/
opaque freeWord : Nat → Nat → Word

/-- A Boolean the spec leaves unspecified after a fault: draw number and place (R910, U6; log 3). -/
opaque freeBit : Nat → Nat → Bool

/-- A row of the screen, unspecified after a fault: draw number and row (R910, U6; log 3). -/
opaque freeScreenRow : Nat → Nat → BitVec 64

/-- The stack pointer, unspecified after a fault but in its range: draw number (R110, R910, U6; log 3). -/
opaque freeSp : Nat → Fin 17

end Sys2Proof.Config
end

