-- ==== Sys2Proof/Syntax.lean ====
section
/-! DEFINITION. The instructions: one constructor per row of spec/opcode_table.json, in the order of
spec/30_encoding.md R340. The operand types are exactly the fields' widths (R301, R304; log 25). A word
that matches no row is no instruction (log 26). -/

namespace Sys2Proof

inductive Instr where
  /-- 0000: no-op (R400). -/
  | nop
  /-- 00E0: clear display (R700). -/
  | cls
  /-- 00EE: return (R410). -/
  | ret
  /-- 1NNN: jump absolute (R420). -/
  | jp (nnn : Addr12)
  /-- 2NNN: call (R430). -/
  | call (nnn : Addr12)
  /-- 3XNN: skip if VX = NN (R440). -/
  | seImm (x : Reg) (nn : Byte)
  /-- 4XNN: skip if VX ≠ NN (R450). -/
  | sneImm (x : Reg) (nn : Byte)
  /-- 5XY0: skip if VX = VY (R460). -/
  | seReg (x y : Reg)
  /-- 6XNN: load immediate (R500). -/
  | ldImm (x : Reg) (nn : Byte)
  /-- 7XNN: add immediate (R510). -/
  | addImm (x : Reg) (nn : Byte)
  /-- 8XY0: register move (R520). -/
  | ldReg (x y : Reg)
  /-- 8XY1: bitwise OR (R525). -/
  | orReg (x y : Reg)
  /-- 8XY2: bitwise AND (R530). -/
  | andReg (x y : Reg)
  /-- 8XY3: bitwise XOR (R535). -/
  | xorReg (x y : Reg)
  /-- 8XY4: add registers (R540). -/
  | addReg (x y : Reg)
  /-- 8XY5: VX - VY (R550). -/
  | subReg (x y : Reg)
  /-- 8XY6: shift VX right; Y is decoded and not read (R560, R304). -/
  | shr (x y : Reg)
  /-- 8XY7: VY - VX (R570). -/
  | subnReg (x y : Reg)
  /-- 8XYE: shift VX left; Y is decoded and not read (R580, R304). -/
  | shl (x y : Reg)
  /-- 9XY0: skip if VX ≠ VY (R470). -/
  | sneReg (x y : Reg)
  /-- ANNN: load the address register (R600). -/
  | ldI (nnn : Addr12)
  /-- BNNN: jump to NNN + V0 (R480). -/
  | jpV0 (nnn : Addr12)
  /-- CXNN: random byte AND NN (R590). -/
  | rnd (x : Reg) (nn : Byte)
  /-- DXYN: draw a sprite of N rows (R720). -/
  | drw (x y : Reg) (n : Nibble)
  /-- EX9E: skip if the key VX is pressed (R800). -/
  | skp (x : Reg)
  /-- EXA1: skip if the key VX is not pressed (R810). -/
  | sknp (x : Reg)
  /-- FX07: VX := delay timer (R820). -/
  | ldRegDt (x : Reg)
  /-- FX0A: wait for a key (R830). -/
  | ldRegKey (x : Reg)
  /-- FX15: delay timer := VX (R850). -/
  | ldDtReg (x : Reg)
  /-- FX18: sound timer := VX (R860). -/
  | ldStReg (x : Reg)
  /-- FX1E: I := I + VX (R610). -/
  | addI (x : Reg)
  /-- FX29: I := address of the glyph VX (R620). -/
  | ldFont (x : Reg)
  /-- FX33: store the decimal digits of VX (R630). -/
  | bcd (x : Reg)
  /-- FX55: store V0 to VX (R640). -/
  | storeRegs (x : Reg)
  /-- FX65: load V0 to VX (R650). -/
  | loadRegs (x : Reg)
  deriving DecidableEq, Repr

end Sys2Proof
end

