-- ==== Sys2Proof/WellFormed.lean ====
section
/-! DEFINITION. Well-formedness checks.
An instruction's operands fit their fields by type, so `Instr.wellFormed` refuses no term (theorem
`Instr.wellFormed_all` in Laws/Encoding.lean; log 25); it is written out so that the ranges of R301 can be
read. The check that can refuse is the one on a program image (R933). -/

namespace Sys2Proof

/-- Every operand is in the range its field can hold (R301, R304). -/
def Instr.wellFormed : Instr → Bool
  | .nop | .cls | .ret => true
  | .jp nnn | .call nnn | .ldI nnn | .jpV0 nnn => decide (nnn.toNat < 4096)
  | .seImm x nn | .sneImm x nn | .ldImm x nn | .addImm x nn | .rnd x nn =>
    decide (x.val < 16) && decide (nn.toNat < 256)
  | .seReg x y | .ldReg x y | .orReg x y | .andReg x y | .xorReg x y | .addReg x y | .subReg x y
  | .shr x y | .subnReg x y | .shl x y | .sneReg x y => decide (x.val < 16) && decide (y.val < 16)
  | .drw x y n => decide (x.val < 16) && decide (y.val < 16) && decide (n.toNat < 16)
  | .skp x | .sknp x | .ldRegDt x | .ldRegKey x | .ldDtReg x | .ldStReg x | .addI x | .ldFont x
  | .bcd x | .storeRegs x | .loadRegs x => decide (x.val < 16)

/-- A program image is one that LOAD accepts: at most MAX_IMAGE bytes (R933, R10). -/
abbrev imageFits (image : List Byte) : Bool := decide (image.length ≤ Config.maxImage)

end Sys2Proof
end

