-- ==== Sys2Proof/Machine/State.lean ====
section
/-! DEFINITION. The state of the machine (spec/10_state.md R100), the reasons a STEP can stop, and the state
after reset (R140, spec/70_reset_and_hazards.md R1000). -/

namespace Sys2Proof.Machine

/-- Memory as a list of (address, byte) with rising addresses, listing only bytes that differ from the
reset contents (`unlistedByte` in Machine/Ops.lean; the form is `Memory.wf` there). -/
abbrev Memory := List Host.Cell

/-- The screen buffer: 32 rows of 64 one-bit cells (R9, R115), the cell of column x being bit x of its row
(log 29). -/
abbrev Screen := Vector (BitVec 64) 32

/-- The fault kinds of spec/60_exceptions.md R901, each with the value it records. A fault ends execution
(R910): the machine stops where the source's program would go wrong, so each is safe. -/
inductive Fault where
  /-- Code 1: raised by the fetch of any STEP when `pc > 4094`; records `pc` (R320). Safe. -/
  | fetchOutOfBounds (pc : Nat)
  /-- Code 2: raised by the decode of any STEP when the word matches no row; records the word (R321). Safe. -/
  | unknownOpcode (w : Nat)
  /-- Code 3: raised by 2NNN when `sp = 16`; records the address of the 2NNN (R430). Safe. -/
  | stackOverflow (p : Nat)
  /-- Code 4: raised by 00EE when `sp = 0`; records the address of the 00EE (R410). Safe. -/
  | stackUnderflow (p : Nat)
  /-- Code 5: raised by DXYN, FX33, FX55 and FX65 at a data address of 4096 or more; records the address
  (R210, R630, R640, R650, R720). Safe (log 8). -/
  | memOutOfBounds (a : Nat)
  /-- Code 6: raised by EX9E and EXA1 when VX is 16 or more; records VX (R800, R810). Safe (log 7). -/
  | keyIndexOutOfRange (k : Nat)
  deriving DecidableEq, Repr

/-- Why the model gives an instruction no meaning. -/
inductive Refusal where
  /-- Raised by an arm of `exec` whose instruction has no meaning yet; no arm does. Safe. -/
  | notModelled (mnemonic : String)
  deriving DecidableEq, Repr

/-- The state of the machine: everything R100 lists, and `freeCount`, the model's own. -/
structure State where
  /-- Memory, 4096 bytes (R116). -/
  mem : Memory
  /-- The data registers V0 to VF (R102); VF is the flag register (R103). -/
  x : Vector Byte 16
  /-- The address register (R109). -/
  I : Word
  /-- The program counter (R105). -/
  pc : Word
  /-- The return stack's slots (R110). -/
  stack : Vector Word 16
  /-- The stack pointer, the number of slots in use, 0 to 16 (R110; log 14). -/
  sp : Fin 17
  /-- The delay timer (R112). -/
  dt : Byte
  /-- The sound timer (R113). -/
  st : Byte
  /-- The keyboard latch (R114). -/
  key : Vector Bool 16
  /-- The screen buffer, cell (x, y) at x + 64*y (R115). -/
  fb : Screen
  /-- The fault status (R130): none, or the fault a STEP raised (log 15). -/
  fault : Option Fault
  /-- `sound_edge`, an output of the last TICK (R922; log 22). -/
  soundEdge : Bool
  /-- THE MODEL'S OWN: how many free values have been drawn (logs 2, 3, 27). -/
  freeCount : Nat
  deriving DecidableEq, Repr

/-- The state after construct or RESET (R140, R1000). Memory lists nothing: an unlisted byte reads as its
reset contents, FONT below 80 and 0 above. `freeCount` starts at 0: DESIGN CHOICE, log 27. -/
def State.reset : State where
  mem := []
  x := Vector.replicate 16 0
  I := 0
  pc := 0x200
  stack := Vector.replicate 16 0
  sp := 0
  dt := 0
  st := 0
  key := Vector.replicate 16 false
  fb := Vector.replicate 32 0
  fault := none
  soundEdge := false
  freeCount := 0

end Sys2Proof.Machine
end

