-- ==== Sys2Proof/Machine/Ops.lean ====
section
/-! DEFINITION. The operations every meaning is written over: registers, memory, the return stack, the
keyboard latch, the screen, fetching, and what a fault does to the state. -/

namespace Sys2Proof.Machine

/-- What `exec` and `step` answer. -/
abbrev Result := Host.Outcome State Fault Refusal

/-! ### Registers -/

/-- Data register `r`; no register is hardwired (R102). -/
def State.reg (s : State) (r : Reg) : Byte := s.x[r.val]

/-- `x[r] <- v` (R102, R14). -/
def State.setReg (s : State) (r : Reg) (v : Byte) : State := { s with x := s.x.set r.val v }

/-- `pc <- v` (R105). -/
def State.setPc (s : State) (v : Word) : State := { s with pc := v }

/-- `I <- v` (R109). -/
def State.setI (s : State) (v : Word) : State := { s with I := v }

/-- `dt <- v` (R112). -/
def State.setDt (s : State) (v : Byte) : State := { s with dt := v }

/-- `st <- v` (R113). -/
def State.setSt (s : State) (v : Byte) : State := { s with st := v }

/-- Memory as a whole (R116). -/
def State.setMem (s : State) (m : Memory) : State := { s with mem := m }

/-- The register file as a whole (R650). -/
def State.setRegs (s : State) (x : Vector Byte 16) : State := { s with x := x }

/-- The screen as a whole (R115). -/
def State.setScreen (s : State) (fb : Screen) : State := { s with fb := fb }

/-- `p`, the address of the instruction being executed: fetch has advanced `pc` by 2 (R105, R320; log 19). -/
def State.instrAddr (s : State) : Word := s.pc - 2

/-- A skip: one extra `pc <- pc + 2` (R401; log 19). -/
def State.skipIf (c : Bool) (s : State) : State := if c then s.setPc (s.pc + 2) else s

/-! ### Memory -/

/-- What an address that memory does not list reads as, its reset contents: FONT below 80, else 0 (R140, R201). -/
def unlistedByte (a : Nat) : Byte := if h : a < Config.fontSize then Config.font ⟨a, h⟩ else 0

/-- The byte at an address. -/
def Memory.read : Memory → Nat → Byte
  | [], a => unlistedByte a
  | (k, v) :: m, a => if k = a then v else Memory.read m a

/-- Put a byte in front, unless it is what the address reads as unlisted. -/
def Memory.cons (a : Nat) (v : Byte) (m : Memory) : Memory := if v = unlistedByte a then m else (a, v) :: m

/-- Set the byte at an address, keeping the canonical form. -/
def Memory.write : Memory → Nat → Byte → Memory
  | [], a, v => Memory.cons a v []
  | (k, w) :: m, a, v =>
    if a < k then Memory.cons a v ((k, w) :: m)
    else if a = k then Memory.cons a v m
    else (k, w) :: Memory.write m a v

/-- The canonical form from address `lo` on: rising addresses below 4096, no entry equal to what its address
reads as unlisted. -/
def Memory.wfFrom : Nat → Memory → Bool
  | _, [] => true
  | lo, (k, v) :: m => decide (lo ≤ k) && decide (k < Config.memSize) && v != unlistedByte k && Memory.wfFrom (k + 1) m

/-- The canonical form of memory. -/
def Memory.wf (m : Memory) : Bool := Memory.wfFrom 0 m

/-- The canonical memory whose `n` bytes from `a` on are given by a function. -/
def Memory.tabulate (f : Nat → Byte) : Nat → Nat → Memory
  | _, 0 => []
  | a, n + 1 => Memory.cons a (f a) (Memory.tabulate f (a + 1) n)

/-- Write bytes at rising addresses, without a bounds check. -/
def Memory.writeAll : Memory → Nat → List Byte → Memory
  | m, _, [] => m
  | m, a, b :: bs => Memory.writeAll (Memory.write m a b) (a + 1) bs

/-- `MemRead(a, 1)` (R16): an address of 4096 or more faults, it is never wrapped (R210, R211; log 8). -/
def memRead (m : Memory) (a : Nat) : Except Fault Byte :=
  if a < Config.memSize then .ok (m.read a) else .error (.memOutOfBounds a)

/-- `MemWrite(a, 1, v)` (R16, R210). Every address is writable, the font included (R202; log 13). -/
def memWrite (m : Memory) (a : Nat) (v : Byte) : Except Fault Memory :=
  if a < Config.memSize then .ok (m.write a v) else .error (.memOutOfBounds a)

/-- `n` reads at rising addresses; the first bad address faults (R207, R905; log 20). -/
def readBytes (m : Memory) : Nat → Nat → Except Fault (List Byte)
  | _, 0 => .ok []
  | a, n + 1 =>
    match memRead m a with
    | .error r => .error r
    | .ok b =>
      match readBytes m (a + 1) n with
      | .error r => .error r
      | .ok bs => .ok (b :: bs)

/-- Writes at rising addresses; the first bad address faults (R207, R905; log 20). -/
def writeBytes : Memory → Nat → List Byte → Except Fault Memory
  | m, _, [] => .ok m
  | m, a, b :: bs =>
    match memWrite m a b with
    | .error r => .error r
    | .ok m' => writeBytes m' (a + 1) bs

/-- Fetch: two byte reads at `pc`, big-endian, unless `pc > 4094` (R320, R204, R205, R209). -/
def fetchWord (s : State) : Except Fault Word :=
  if s.pc.toNat > 4094 then .error (.fetchOutOfBounds s.pc.toNat)
  else
    match memRead s.mem s.pc.toNat with
    | .error r => .error r
    | .ok hi =>
      match memRead s.mem (s.pc.toNat + 1) with
      | .error r => .error r
      | .ok lo => .ok (joinBytes hi lo)

/-- The PC's advance by fetch (R320; log 19). -/
def State.advancePc (s : State) : State := s.setPc (s.pc + 2)

/-! ### The return stack (R110) -/

/-- Push: needs `sp < 16`; writes `stack[sp]`, then increments `sp` (R110, R430). -/
def State.push (s : State) (v : Word) : Except Fault State :=
  if h : s.sp.val < 16 then .ok { s with stack := s.stack.set s.sp.val v, sp := ⟨s.sp.val + 1, by omega⟩ }
  else .error (.stackOverflow s.instrAddr.toNat)

/-- Pop: needs `sp > 0`; decrements `sp`, then reads `stack[sp]`, which keeps its value (R110, R111, R410). -/
def State.pop (s : State) : Except Fault (Word × State) :=
  if h : 0 < s.sp.val then
    .ok (s.stack[s.sp.val - 1]'(by omega), { s with sp := ⟨s.sp.val - 1, by omega⟩ })
  else .error (.stackUnderflow s.instrAddr.toNat)

/-! ### Keyboard, registers as a block, screen -/

/-- Latch entry number `k`; a number of 16 or more faults, it is not masked (R800, R810, D7; log 7). -/
def State.keyAt (s : State) (k : Byte) : Except Fault Bool :=
  if h : k.toNat < 16 then .ok s.key[k.toNat] else .error (.keyIndexOutOfRange k.toNat)

/-- The lowest pressed key, if any is pressed (R830). -/
def State.lowestKey (s : State) : Option Reg := (List.finRange 16).find? fun k => s.key[k.val]

/-- V0 to VX in ascending order (R640). -/
def State.regsUpTo (s : State) (x : Reg) : List Byte := s.x.toList.take (x.val + 1)

/-- `x[k], x[k+1], … <- bytes`, ascending (R650). -/
def fillRegs : Nat → List Byte → Vector Byte 16 → Vector Byte 16
  | _, [], x => x
  | k, b :: bs, x => fillRegs (k + 1) bs (x.setIfInBounds k b)

/-- A screen and whether a lit cell has been turned off so far. -/
abbrev Canvas := Screen × Bool

/-- Cell `k` of the screen, `fb[k]` (R14, R115). -/
def Screen.cell (fb : Screen) (k : Fin 2048) : Bool := fb[k.val / 64].getLsbD (k.val % 64)

/-- `fb[k] <- not fb[k]` (R720). -/
def Screen.toggle (fb : Screen) (k : Fin 2048) : Screen :=
  fb.set (k.val / 64) (fb[k.val / 64] ^^^ BitVec.twoPow 64 (k.val % 64))

/-- Every cell false (R700). -/
def Screen.clear : Screen := Vector.replicate 32 0

/-- Toggle a cell; a cell that was on counts as a collision (R720). -/
def plot (k : Fin 2048) (c : Canvas) : Canvas := (Screen.toggle c.1 k, c.2 || Screen.cell c.1 k)

/-! ### Faults (R910) -/

/-- The code of a fault (R901). -/
def Fault.code : Fault → Nat
  | .fetchOutOfBounds _ => 1
  | .unknownOpcode _ => 2
  | .stackOverflow _ => 3
  | .stackUnderflow _ => 4
  | .memOutOfBounds _ => 5
  | .keyIndexOutOfRange _ => 6

/-- The value a fault records (R901). -/
def Fault.info : Fault → Nat
  | .fetchOutOfBounds v | .unknownOpcode v | .stackOverflow v | .stackUnderflow v | .memOutOfBounds v
  | .keyIndexOutOfRange v => v

/-- The read port `fault`, a pair (code, info); (0, 0) when there is none (R130). -/
def State.faultStatus (s : State) : Nat × Nat :=
  match s.fault with
  | none => (0, 0)
  | some r => (r.code, r.info)

/-- TAKING A FAULT: the status records it and every other piece of state is unspecified, a free value each
(R910, R130, D5, U6; log 3). -/
def State.afterFault (r : Fault) (s : State) : State where
  mem := Memory.tabulate (Config.freeByte s.freeCount) 0 Config.memSize
  x := Vector.ofFn fun k => Config.freeByte s.freeCount (Config.memSize + k.val)
  I := Config.freeWord s.freeCount 0
  pc := Config.freeWord s.freeCount 1
  stack := Vector.ofFn fun k => Config.freeWord s.freeCount (2 + k.val)
  sp := Config.freeSp s.freeCount
  dt := Config.freeByte s.freeCount (Config.memSize + 16)
  st := Config.freeByte s.freeCount (Config.memSize + 17)
  key := Vector.ofFn fun k => Config.freeBit s.freeCount k.val
  fb := Vector.ofFn fun k => Config.freeScreenRow s.freeCount k.val
  fault := some r
  soundEdge := Config.freeBit s.freeCount 16
  freeCount := s.freeCount + 1

/-! ### Random bytes -/

/-- `Rand8()`: the next free byte, and the state after drawing it (R18, R935; log 2). -/
def State.drawByte (s : State) : Byte × State :=
  (Config.randomByte s.freeCount, { s with freeCount := s.freeCount + 1 })

end Sys2Proof.Machine
end

