-- ==== Sys2Proof/Machine/Operands.lean ====
section
/-! DEFINITION. Operand forms: immediates (spec/30_encoding.md R303), the I-relative address
(spec/42_address_memory.md R660) and the screen cell of a sprite pixel (spec/43_display.md R720). -/

namespace Sys2Proof.Machine

/-- `zext_16(NNN)` (R303). -/
def zext16 (nnn : Addr12) : Word := nnn.setWidth 16

/-- A register's value as a 16-bit number (R13). -/
def byteToWord (b : Byte) : Word := b.setWidth 16

/-- The data address, byte 0 of an access through I, as an exact natural number; byte `k` is at this plus
`k` (R211, R660, D4; log 8). -/
def State.dataAddr (s : State) : Nat := s.I.toNat

/-- The cell of the pixel at `row`, `col` of a sprite drawn at `baseX`, `baseY`: each axis wraps (R720, R721, R115). -/
def spriteCell (baseX baseY : Byte) (row col : Nat) : Fin 2048 :=
  ⟨(baseX.toNat + col) % 64 + 64 * ((baseY.toNat + row) % 32), by omega⟩

/-- Draw the eight pixels of one sprite row, most significant bit first (R720). -/
def drawRow (baseX baseY : Byte) (row : Nat) (b : Byte) (c : Canvas) : Canvas :=
  (List.range 8).foldl (fun c col => if b.getLsbD (7 - col) then plot (spriteCell baseX baseY row col) c else c) c

/-- Draw the rows of a sprite from row number `row` on (R720, R724). -/
def drawRows (baseX baseY : Byte) : Nat → List Byte → Canvas → Canvas
  | _, [], c => c
  | row, b :: bs, c => drawRows baseX baseY (row + 1) bs (drawRow baseX baseY row b c)

/-- The decimal digits of a byte, hundreds first (R630). -/
def digits (v : Byte) : List Byte :=
  [BitVec.ofNat 8 (v.toNat / 100), BitVec.ofNat 8 (v.toNat / 10 % 10), BitVec.ofNat 8 (v.toNat % 10)]

end Sys2Proof.Machine
end

