-- ==== Sys2Proof/Machine/AddressMemory.lean ====
section
/-! DEFINITION. The address register and memory (spec/42_address_memory.md). I is never moved by an access
(R660, D11; log 9). -/

namespace Sys2Proof.Machine

/-- ANNN (R600). -/
def execLdI (nnn : Addr12) (s : State) : Result := .next (s.setI (zext16 nnn))

/-- FX1E (R610): 16-bit wraparound, no flag effect. -/
def execAddI (x : Reg) (s : State) : Result := .next (s.setI (s.I + byteToWord (s.reg x)))

/-- FX29 (R620): five bytes a glyph, VX not masked. -/
def execLdFont (x : Reg) (s : State) : Result := .next (s.setI (5 * byteToWord (s.reg x)))

/-- FX33 (R630). -/
def execBcd (x : Reg) (s : State) : Result :=
  match writeBytes s.mem s.dataAddr (digits (s.reg x)) with
  | .error r => .fault r
  | .ok m => .next (s.setMem m)

/-- FX55 (R640). -/
def execStoreRegs (x : Reg) (s : State) : Result :=
  match writeBytes s.mem s.dataAddr (s.regsUpTo x) with
  | .error r => .fault r
  | .ok m => .next (s.setMem m)

/-- FX65 (R650). -/
def execLoadRegs (x : Reg) (s : State) : Result :=
  match readBytes s.mem s.dataAddr (x.val + 1) with
  | .error r => .fault r
  | .ok bs => .next (s.setRegs (fillRegs 0 bs s.x))

end Sys2Proof.Machine
end

