-- ==== Sys2Proof/Machine/Flags.lean ====
section
/-! DEFINITION. The flag values that six instructions put in VF (spec/10_state.md R120, spec/41_alu.md R540
to R580, spec/43_display.md R720) and the order of the two writes (R596). -/

namespace Sys2Proof.Machine

/-- VF, register 15 (R103). -/
def vf : Reg := 15

/-- A flag as the byte 0 or 1 (R120). -/
def flagByte (b : Bool) : Byte := if b then 1 else 0

/-- The carry out of bit 7 of `a + b` (R540). -/
def carryOut (a b : Byte) : Byte := flagByte (decide (256 ≤ a.toNat + b.toNat))

/-- NOT borrow of `a - b`: 1 when `a ≥ b` (R550, R570). -/
def notBorrow (a b : Byte) : Byte := flagByte (decide (b.toNat ≤ a.toNat))

/-- The bit a right shift moves out, bit 0 (R560). -/
def bitOutRight (a : Byte) : Byte := flagByte (a.getLsbD 0)

/-- The bit a left shift moves out, bit 7 (R580). -/
def bitOutLeft (a : Byte) : Byte := flagByte (a.getLsbD 7)

/-- The result to VX, then the flag to VF, so that with X = 15 the flag stays (R596, D3; log 5). -/
def State.setResultThenFlag (s : State) (x : Reg) (result flag : Byte) : State :=
  (s.setReg x result).setReg vf flag

end Sys2Proof.Machine
end

