-- ==== Sys2Proof/Machine/ControlFlow.lean ====
section
/-! DEFINITION. Control flow (spec/40_control_flow.md). Every meaning starts with `pc` already advanced by 2
(R320, R322; log 23). -/

namespace Sys2Proof.Machine

/-- 0000 (R400): nothing but the fetch's advance of `pc`. -/
def execNop (s : State) : Result := .next s

/-- 00EE (R410): pop the return address into `pc`. -/
def execRet (s : State) : Result :=
  match s.pop with
  | .error r => .fault r
  | .ok (v, s') => .next (s'.setPc v)

/-- 1NNN (R420). -/
def execJp (nnn : Addr12) (s : State) : Result := .next (s.setPc (zext16 nnn))

/-- 2NNN (R430): push the advanced `pc`, then jump. -/
def execCall (nnn : Addr12) (s : State) : Result :=
  match s.push s.pc with
  | .error r => .fault r
  | .ok s' => .next (s'.setPc (zext16 nnn))

/-- 3XNN (R440). -/
def execSeImm (x : Reg) (nn : Byte) (s : State) : Result := .next (s.skipIf (s.reg x == nn))

/-- 4XNN (R450). -/
def execSneImm (x : Reg) (nn : Byte) (s : State) : Result := .next (s.skipIf (s.reg x != nn))

/-- 5XY0 (R460). -/
def execSeReg (x y : Reg) (s : State) : Result := .next (s.skipIf (s.reg x == s.reg y))

/-- 9XY0 (R470). -/
def execSneReg (x y : Reg) (s : State) : Result := .next (s.skipIf (s.reg x != s.reg y))

/-- BNNN (R480): the register is always V0. -/
def execJpV0 (nnn : Addr12) (s : State) : Result := .next (s.setPc (zext16 nnn + byteToWord (s.reg 0)))

end Sys2Proof.Machine
end

