-- ==== Sys2Proof/Machine/Display.lean ====
section
/-! DEFINITION. The screen (spec/43_display.md). -/

namespace Sys2Proof.Machine

/-- 00E0 (R700): every cell false; VF is not written. -/
def execCls (s : State) : Result := .next (s.setScreen Screen.clear)

/-- DXYN (R720): read N sprite bytes at I, toggle the cells of their 1 bits, then put the collision flag in
VF (R725). N = 0 draws no row and clears VF (R723; log 10). -/
def execDrw (x y : Reg) (n : Nibble) (s : State) : Result :=
  match readBytes s.mem s.dataAddr n.toNat with
  | .error r => .fault r
  | .ok bs =>
    let c := drawRows (s.reg x) (s.reg y) 0 bs (s.fb, false)
    .next ((s.setScreen c.1).setReg vf (flagByte c.2))

end Sys2Proof.Machine
end

