-- ==== Sys2Proof/Machine/InputTimers.lean ====
section
/-! DEFINITION. The keyboard and timer instructions (spec/44_input_timers.md). -/

namespace Sys2Proof.Machine

/-- EX9E (R800). -/
def execSkp (x : Reg) (s : State) : Result :=
  match s.keyAt (s.reg x) with
  | .error r => .fault r
  | .ok pressed => .next (s.skipIf pressed)

/-- EXA1 (R810). -/
def execSknp (x : Reg) (s : State) : Result :=
  match s.keyAt (s.reg x) with
  | .error r => .fault r
  | .ok pressed => .next (s.skipIf (!pressed))

/-- FX07 (R820). -/
def execLdRegDt (x : Reg) (s : State) : Result := .next (s.setReg x s.dt)

/-- FX0A (R830): the lowest pressed key to VX, or `pc` back to this instruction (R831; log 19). -/
def execLdRegKey (x : Reg) (s : State) : Result :=
  match s.lowestKey with
  | some k => .next (s.setReg x (BitVec.ofNat 8 k.val))
  | none => .next (s.setPc (s.pc - 2))

/-- FX15 (R850). -/
def execLdDtReg (x : Reg) (s : State) : Result := .next (s.setDt (s.reg x))

/-- FX18 (R860). -/
def execLdStReg (x : Reg) (s : State) : Result := .next (s.setSt (s.reg x))

end Sys2Proof.Machine
end

