-- ==== Sys2Proof/Machine/Step.lean ====
section
/-! DEFINITION. One STEP (spec/30_encoding.md R323): fetch, decode, execute. -/

namespace Sys2Proof.Machine

/-- A STEP (R323, R931). While the fault status is set it does nothing and answers the same fault (R911).
Otherwise the first fault met in fetch, decode, execute order is the answer (R905; log 20). What a faulting
STEP leaves in the state is `State.afterFault`, applied by the STEP command (Machine/Commands.lean; log 3). -/
def step (s : State) : Host.Outcome State Fault Refusal :=
  match s.fault with
  | some r => .fault r
  | none =>
    match fetchWord s with
    | .error r => .fault r
    | .ok w =>
      match decodeWord w with
      | none => .fault (.unknownOpcode w.toNat)
      | some i => exec i s.advancePc

/-- The state with an instruction word stored where the next STEP fetches it, and that STEP able to fetch:
`pc` as it is if a word can be fetched there, else PROG_BASE, and no fault status (log 24). -/
def State.withFetchWord (s : State) (nbits w : Nat) : State :=
  let p : Word := if s.pc.toNat ≤ 4094 then s.pc else BitVec.ofNat 16 Config.progBase
  let word : Word := BitVec.ofNat 16 (w % 2 ^ nbits)
  { s with mem := s.mem.writeAll p.toNat [highByte word, lowByte word], pc := p, fault := none }

end Sys2Proof.Machine
end

