-- ==== Sys2Proof/Machine/Commands.lean ====
section
/-! DEFINITION. The host's commands (spec/60_exceptions.md R930 to R936, spec/70_reset_and_hazards.md R1000).
Each is atomic and none runs during a STEP; a host is the list of commands it issues (R936; log 16). -/

namespace Sys2Proof.Machine

/-- A command of the host (R930). SET_KEY's index has 4 bits (R932, D16; log 25). -/
inductive Command where
  | step
  | tick
  | setKey (k : Fin 16) (pressed : Bool)
  | load (image : List Byte)
  | reset
  | readDisplay
  deriving DecidableEq, Repr

/-- What a command returns to the host. -/
inductive Response where
  /-- The command completed (R931, R933). -/
  | ok
  /-- A STEP's fault (R910, R931). -/
  | fault (r : Fault)
  /-- A STEP whose instruction the model gives no meaning; none is. -/
  | refused (r : Refusal)
  /-- LOAD's rejection of an image of more than 3584 bytes (R902, R933). -/
  | loadTooLarge
  /-- READ_DISPLAY's 2048 cells (R934). -/
  | display (cells : Vector Bool 2048)
  deriving DecidableEq, Repr

/-- `tone_active` (R922). -/
def State.toneActive (s : State) : Bool := s.st != 0

/-- A timer's countdown: it saturates at 0 (R920). -/
def countDown (t : Byte) : Byte := if t = 0 then 0 else t - 1

/-- TICK (R920, R922; log 22). -/
def State.tick (s : State) : State :=
  { s with dt := countDown s.dt, st := countDown s.st, soundEdge := s.st == 1 }

/-- SET_KEY (R932). -/
def State.setKey (s : State) (k : Fin 16) (pressed : Bool) : State := { s with key := s.key.set k.val pressed }

/-- LOAD of an image that fits: only the image's bytes change (R933, D12; log 17). -/
def State.loadImage (s : State) (image : List Byte) : State := s.setMem (s.mem.writeAll Config.progBase image)

/-- RESET (R1000): the construct-time state. The free values drawn so far stay drawn, so that draws after a
RESET are not tied to draws before it (R18; log 27). -/
def State.resetCommand (s : State) : State := { State.reset with freeCount := s.freeCount }

/-- STEP as a command (R910, R911, R931): a faulting STEP sets the fault status and leaves the rest
unspecified; a STEP of a faulted machine changes nothing. -/
def State.stepCommand (s : State) : State × Response :=
  match step s with
  | .next t => (t, .ok)
  | .refused r => (s, .refused r)
  | .fault r =>
    match s.fault with
    | some _ => (s, .fault r)
    | none => (s.afterFault r, .fault r)

/-- READ_DISPLAY: the 2048 cells as they are at the read, row by row (R934, D24; log 16). -/
def State.readDisplay (s : State) : Vector Bool 2048 := Vector.ofFn fun k => Screen.cell s.fb k

/-- A command's effect and what it returns (R930). -/
def command (c : Command) (s : State) : State × Response :=
  match c with
  | .step => s.stepCommand
  | .tick => (s.tick, .ok)
  | .setKey k pressed => (s.setKey k pressed, .ok)
  | .load image => if imageFits image then (s.loadImage image, .ok) else (s, .loadTooLarge)
  | .reset => (s.resetCommand, .ok)
  | .readDisplay => (s, .display s.readDisplay)

/-- The state after a list of commands, oldest first (R936). -/
def runCommands : List Command → State → State
  | [], s => s
  | c :: cs, s => runCommands cs (command c s).1

end Sys2Proof.Machine
end

