-- ==== Sys2Proof/Safety.lean ====
section
/-! DEFINITION. The words claims are made in: what an instruction leaves unchanged, what a good state is, and
which instructions may write what. -/

namespace Sys2Proof.Machine

/-! ### Frames -/

/-- The pieces of state (R100), as names for frames. `pc` may always change; it has a name for the
instructions that leave it as the fetch did (R106). -/
inductive Part where
  | mem | regs | addr | pc | stack | dt | st | key | screen | fault | soundEdge | freeCount
  deriving DecidableEq, Repr

/-- The part is the same in both states. Memory is compared byte by byte, at every address; the stack is its
slots and its pointer. -/
def Part.same : Part → State → State → Prop
  | .mem, s, t => ∀ a, t.mem.read a = s.mem.read a
  | .regs, s, t => ∀ r, t.reg r = s.reg r
  | .addr, s, t => t.I = s.I
  | .pc, s, t => t.pc = s.pc
  | .stack, s, t => t.stack = s.stack ∧ t.sp = s.sp
  | .dt, s, t => t.dt = s.dt
  | .st, s, t => t.st = s.st
  | .key, s, t => t.key = s.key
  | .screen, s, t => t.fb = s.fb
  | .fault, s, t => t.fault = s.fault
  | .soundEdge, s, t => t.soundEdge = s.soundEdge
  | .freeCount, s, t => t.freeCount = s.freeCount

/-- Every part but those named is the same. -/
def onlyChanges (parts : List Part) (s t : State) : Prop := ∀ p, p ∉ parts → p.same s t

/-- Every data register but those named is the same. -/
def onlyRegs (rs : List Reg) (s t : State) : Prop := ∀ r, r ∉ rs → t.reg r = s.reg r

/-- Every byte of memory outside `n` bytes from `a` on is the same. -/
def onlyBytes (a n : Nat) (s t : State) : Prop := ∀ b, ¬(a ≤ b ∧ b < a + n) → t.mem.read b = s.mem.read b

/-- The screen cell at column `cx`, row `cy` (R115). -/
def State.cell (s : State) (cx : Fin 64) (cy : Fin 32) : Bool :=
  Screen.cell s.fb ⟨cx.val + 64 * cy.val, by omega⟩

/-- The 1 bits of the `n`-row sprite at I, drawn at VX, VY, reach the cell at column `cx`, row `cy` (R720, R721). -/
def State.spriteCovers (s : State) (x y : Reg) (n : Nibble) (cx : Fin 64) (cy : Fin 32) : Prop :=
  ∃ row col : Nat, row < n.toNat ∧ col < 8 ∧ (s.mem.read (s.dataAddr + row)).getLsbD (7 - col) = true ∧
    cx.val = ((s.reg x).toNat + col) % 64 ∧ cy.val = ((s.reg y).toNat + row) % 32

/-- The two states differ at most in stack slots that are not in use, at index `sp` and above (R111). -/
def sameButStaleSlots (s t : State) : Prop :=
  (∃ v, t = { s with stack := v }) ∧ ∀ k : Fin 16, k.val < s.sp.val → t.stack[k.val] = s.stack[k.val]

/-- No key of the latch is pressed. -/
def State.noKey (s : State) : Prop := ∀ k : Fin 16, s.key[k.val] = false

/-! ### Good states -/

/-- What holds of every state a run reaches while no fault is set: memory is canonical, `pc` is at most 0x10FE
(R108), and every slot in use holds an address that a fetch has advanced to (R410). -/
structure State.Inv (s : State) : Prop where
  memory : s.mem.wf = true
  pcBound : s.pc.toNat ≤ 0x10FE
  returns : ∀ k : Fin 16, k.val < s.sp.val → 2 ≤ s.stack[k.val].toNat ∧ s.stack[k.val].toNat ≤ 4096

/-- What holds of every state a host can reach, faulted or not: memory is canonical; with no fault set the
state is good; with one set, the value it records is below 65536 (R130). -/
structure State.Sound (s : State) : Prop where
  memory : s.mem.wf = true
  running : s.fault = none → s.Inv
  recorded : ∀ r, s.fault = some r → r.info < 65536

end Sys2Proof.Machine

/-! ### Which instructions may write what -/

namespace Sys2Proof

/-- The data registers an instruction may write (R104): its destination, and VF for the six that write a flag. -/
def Instr.writesReg (i : Instr) (r : Reg) : Bool :=
  match i with
  | .ldImm x _ | .addImm x _ | .ldReg x _ | .orReg x _ | .andReg x _ | .xorReg x _ | .rnd x _
  | .ldRegDt x | .ldRegKey x => r == x
  | .addReg x _ | .subReg x _ | .shr x _ | .subnReg x _ | .shl x _ => r == x || r == 15
  | .drw _ _ _ => r == 15
  | .loadRegs x => decide (r.val ≤ x.val)
  | .nop | .cls | .ret | .jp _ | .call _ | .seImm _ _ | .sneImm _ _ | .seReg _ _ | .sneReg _ _ | .ldI _
  | .jpV0 _ | .skp _ | .sknp _ | .ldDtReg _ | .ldStReg _ | .addI _ | .ldFont _ | .bcd _ | .storeRegs _ => false

/-- The parts an instruction may write (R104, R106, R109 to R115, R130): every other part is unchanged. -/
def Instr.writesParts : Instr → List Machine.Part
  | .nop => []
  | .cls => [.screen]
  | .ret | .call _ => [.pc, .stack]
  | .jp _ | .jpV0 _ | .seImm _ _ | .sneImm _ _ | .seReg _ _ | .sneReg _ _ | .skp _ | .sknp _ => [.pc]
  | .ldImm _ _ | .addImm _ _ | .ldReg _ _ | .orReg _ _ | .andReg _ _ | .xorReg _ _ | .addReg _ _ | .subReg _ _
  | .shr _ _ | .subnReg _ _ | .shl _ _ | .ldRegDt _ | .loadRegs _ => [.regs]
  | .rnd _ _ => [.regs, .freeCount]
  | .drw _ _ _ => [.regs, .screen]
  | .ldRegKey _ => [.regs, .pc]
  | .ldDtReg _ => [.dt]
  | .ldStReg _ => [.st]
  | .ldI _ | .addI _ | .ldFont _ => [.addr]
  | .bcd _ | .storeRegs _ => [.mem]

end Sys2Proof
end

