-- ==== Sys2Proof/Certificates/Slice0/Obligations.lean ====
section
/-! DEFINITION. The statements for the provers. In a statement about `exec`, `s` is the state after the fetch,
so `pc` is already the instruction's address plus 2 (R320, R322); `s.pc = p + 2` names that address `p`. -/

open Sys2Proof Sys2Proof.Machine

/-! ### Encoding -/

/-- No bit of an encoding is dropped: every instruction, with every operand, decodes from its word and from its
bytes, whatever follows them. -/
def Obligations.DecodeOfEncode : Prop :=
  ∀ (i : Instr) (rest : List Byte),
    decodeWord (encodeWord i) = some i ∧ decodeBytes (encode i ++ rest) = .ok (i, rest)

/-- Each legal word has one reading and one spelling (the Y of 8XY6 and 8XYE is kept, R304). -/
def Obligations.EncodeOfDecode : Prop :=
  ∀ (w : Word) (i : Instr), decodeWord w = some i → encodeWord i = w

/-- R340, row by row (00E0 and 00EE are the spec's decision D14, log 4): the word with the row's fixed nibbles and the operands in the fields of R301 and R302
decodes to the row's instruction with those operands. -/
def Obligations.OpcodeMapRowByRow : Prop :=
  ∀ (x y : Reg) (n : Nibble) (nn : Byte) (nnn : Addr12),
    let X := x.val * 0x100
    let Y := y.val * 0x10
    let word (k : Nat) := decodeWord (BitVec.ofNat 16 k)
    word 0x0000 = some .nop ∧ word 0x00E0 = some .cls ∧ word 0x00EE = some .ret ∧
    word (0x1000 + nnn.toNat) = some (.jp nnn) ∧ word (0x2000 + nnn.toNat) = some (.call nnn) ∧
    word (0x3000 + X + nn.toNat) = some (.seImm x nn) ∧ word (0x4000 + X + nn.toNat) = some (.sneImm x nn) ∧
    word (0x5000 + X + Y) = some (.seReg x y) ∧ word (0x6000 + X + nn.toNat) = some (.ldImm x nn) ∧
    word (0x7000 + X + nn.toNat) = some (.addImm x nn) ∧ word (0x8000 + X + Y) = some (.ldReg x y) ∧
    word (0x8001 + X + Y) = some (.orReg x y) ∧ word (0x8002 + X + Y) = some (.andReg x y) ∧
    word (0x8003 + X + Y) = some (.xorReg x y) ∧ word (0x8004 + X + Y) = some (.addReg x y) ∧
    word (0x8005 + X + Y) = some (.subReg x y) ∧ word (0x8006 + X + Y) = some (.shr x y) ∧
    word (0x8007 + X + Y) = some (.subnReg x y) ∧ word (0x800E + X + Y) = some (.shl x y) ∧
    word (0x9000 + X + Y) = some (.sneReg x y) ∧ word (0xA000 + nnn.toNat) = some (.ldI nnn) ∧
    word (0xB000 + nnn.toNat) = some (.jpV0 nnn) ∧ word (0xC000 + X + nn.toNat) = some (.rnd x nn) ∧
    word (0xD000 + X + Y + n.toNat) = some (.drw x y n) ∧ word (0xE09E + X) = some (.skp x) ∧
    word (0xE0A1 + X) = some (.sknp x) ∧ word (0xF007 + X) = some (.ldRegDt x) ∧
    word (0xF00A + X) = some (.ldRegKey x) ∧ word (0xF015 + X) = some (.ldDtReg x) ∧
    word (0xF018 + X) = some (.ldStReg x) ∧ word (0xF01E + X) = some (.addI x) ∧
    word (0xF029 + X) = some (.ldFont x) ∧ word (0xF033 + X) = some (.bcd x) ∧
    word (0xF055 + X) = some (.storeRegs x) ∧ word (0xF065 + X) = some (.loadRegs x)

/-- The decoder accepts exactly the words that match a row of R340, and no two rows match one word (R321). -/
def Obligations.DecodeIffExactlyOneRowMatches : Prop :=
  ∀ w : Word,
    ((decodeWord w).isSome = true ↔ ∃ r ∈ opcodeRows, r.matchesWord w = true) ∧
    ∀ r₁ ∈ opcodeRows, ∀ r₂ ∈ opcodeRows, r₁.matchesWord w = true → r₂.matchesWord w = true → r₁ = r₂

/-- The table of R350: exactly these words are no instruction. That 00E0 and 00EE are the only legal words 0NNN
beside 0000 is the spec's decision D14 (log 4). -/
def Obligations.IllegalWords : Prop :=
  ∀ w : Word, decodeWord w = none ↔
    (w.toNat / 4096 = 0x0 ∧ w.toNat ≠ 0x0000 ∧ w.toNat ≠ 0x00E0 ∧ w.toNat ≠ 0x00EE) ∨
    ((w.toNat / 4096 = 0x5 ∨ w.toNat / 4096 = 0x9) ∧ w.toNat % 16 ≠ 0) ∨
    (w.toNat / 4096 = 0x8 ∧ w.toNat % 16 ∈ [0x8, 0x9, 0xA, 0xB, 0xC, 0xD, 0xF]) ∨
    (w.toNat / 4096 = 0xE ∧ w.toNat % 256 ∉ [0x9E, 0xA1]) ∨
    (w.toNat / 4096 = 0xF ∧ w.toNat % 256 ∉ [0x07, 0x0A, 0x15, 0x18, 0x1E, 0x29, 0x33, 0x55, 0x65])

/-- Words the spec writes out (R370, the examples of R400 to R860), one or more a family; 00E0 is decision D14,
log 4. -/
def Obligations.SpecExampleWordsDecode : Prop :=
  decodeWord 0x00E0 = some .cls ∧ decodeWord 0x6005 = some (.ldImm 0 5) ∧ decodeWord 0x70FA = some (.addImm 0 250) ∧
  decodeWord 0x1200 = some (.jp 0x200) ∧ decodeWord 0x8124 = some (.addReg 1 2) ∧ decodeWord 0x812E = some (.shl 1 2) ∧
  decodeWord 0xD01F = some (.drw 0 1 15) ∧ decodeWord 0xE19E = some (.skp 1) ∧ decodeWord 0xF50A = some (.ldRegKey 5) ∧
  decodeWord 0xF255 = some (.storeRegs 2) ∧ decodeWord 0x5121 = none ∧ decodeWord 0x00E1 = none

/-! ### The STEP -/

/-- A step runs the decoded instruction: the word at `pc`, high byte first (R204), on the state whose `pc` the fetch
has advanced by 2 (R320 to R323). That `exec` starts after the fetch is the model's convention (log 23); that an odd
`pc` fetches like any other is the spec's decision D19 (log 11). -/
def Obligations.StepRunsDecodedInstruction : Prop :=
  ∀ (s : State) (i : Instr), s.fault = none → s.pc.toNat ≤ 4094 →
    decodeWord (BitVec.ofNat 16 ((s.mem.read s.pc.toNat).toNat * 256 + (s.mem.read (s.pc.toNat + 1)).toNat)) = some i →
    step s = exec i { s with pc := s.pc + 2 }

/-- A fetch at 4095 or above faults and records `pc`. -/
def Obligations.FetchPastTheEndFaults : Prop :=
  ∀ s : State, s.fault = none → 4094 < s.pc.toNat → step s = .fault (.fetchOutOfBounds s.pc.toNat)

/-- A word that is no instruction faults and is recorded (the code and the recorded word: decision D6, log 15). -/
def Obligations.UnknownWordFaults : Prop :=
  ∀ (s : State) (w : Word), s.fault = none → s.pc.toNat ≤ 4094 →
    w.toNat = (s.mem.read s.pc.toNat).toNat * 256 + (s.mem.read (s.pc.toNat + 1)).toNat →
    decodeWord w = none → step s = .fault (.unknownOpcode w.toNat)

/-- An instruction's two bytes placed at `pc` are what the next STEP runs. -/
def Obligations.PlacedInstructionRuns : Prop :=
  ∀ (s : State) (i : Instr), s.mem.wf = true →
    ∃ p : Word, (s.pc.toNat ≤ 4094 → p = s.pc) ∧ (4094 < s.pc.toNat → p.toNat = 0x200) ∧
      step (s.withFetchWord 16 (encodeWord i).toNat) =
        exec i { s.withFetchWord 16 (encodeWord i).toNat with pc := p + 2 } ∧
      onlyBytes p.toNat 2 s (s.withFetchWord 16 (encodeWord i).toNat)

/-- Every STEP completes or faults by name: no instruction is refused, whatever the state. -/
def Obligations.NoStepIsRefused : Prop :=
  ∀ (s : State) (r : Refusal), step s ≠ .refused r

/-- An instruction raises a fault exactly in the cases of R901's table, and records what that table says, for an
access the first address of 4096 or more (the codes and recorded values are decision D6, log 15; the limit of 16
entries D17, log 14; the key index D7, log 7; exact addresses and the first one D4 and D18, logs 8 and 20). -/
def Obligations.FaultsOfInstructions : Prop :=
  ∀ (i : Instr) (s : State) (p : Word) (r : Fault), s.pc = p + 2 → (exec i s = .fault r ↔
    (∃ nnn, i = .call nnn ∧ s.sp.val = 16 ∧ r = .stackOverflow p.toNat) ∨
    (i = .ret ∧ s.sp.val = 0 ∧ r = .stackUnderflow p.toNat) ∨
    (((∃ x y n, i = .drw x y n ∧ 1 ≤ n.toNat ∧ 4096 < s.dataAddr + n.toNat) ∨
        (∃ x, i = .bcd x ∧ 4096 < s.dataAddr + 3) ∨
        (∃ x, (i = .storeRegs x ∨ i = .loadRegs x) ∧ 4096 < s.dataAddr + (x.val + 1))) ∧
      r = .memOutOfBounds (max s.dataAddr 4096)) ∨
    (∃ x, (i = .skp x ∨ i = .sknp x) ∧ 16 ≤ (s.reg x).toNat ∧ r = .keyIndexOutOfRange (s.reg x).toNat))

/-! ### Control flow -/

/-- 0000 leaves the state as the fetch left it. -/
def Obligations.NopResult : Prop := ∀ s : State, exec .nop s = .next s

/-- 1NNN sets `pc` to NNN and nothing else. -/
def Obligations.JumpResult : Prop :=
  ∀ (nnn : Addr12) (s : State),
    ∃ t, exec (.jp nnn) s = .next t ∧ t.pc.toNat = nnn.toNat ∧ onlyChanges [.pc] s t

/-- BNNN sets `pc` to NNN + V0 and nothing else; the sum is never cut. -/
def Obligations.JumpRelativeResult : Prop :=
  ∀ (nnn : Addr12) (s : State),
    ∃ t, exec (.jpV0 nnn) s = .next t ∧ t.pc.toNat = nnn.toNat + (s.reg 0).toNat ∧ onlyChanges [.pc] s t

/-- 2NNN pushes the address after the call and jumps; with 16 entries in use it faults and records its address
(the range of the stack pointer: decision D17, log 14). -/
def Obligations.CallResult : Prop :=
  ∀ (nnn : Addr12) (s : State) (p : Word), s.pc = p + 2 →
    (s.sp.val = 16 → exec (.call nnn) s = .fault (.stackOverflow p.toNat)) ∧
    (∀ k : Fin 16, s.sp.val = k.val → ∃ t, exec (.call nnn) s = .next t ∧ t.stack[k.val] = p + 2 ∧
      t.sp.val = k.val + 1 ∧ t.pc.toNat = nnn.toNat ∧
      (∀ j : Fin 16, j ≠ k → t.stack[j.val] = s.stack[j.val]) ∧ onlyChanges [.pc, .stack] s t)

/-- 00EE pops `pc`, clearing no slot; with no entry in use it faults and records its address. -/
def Obligations.ReturnResult : Prop :=
  ∀ (s : State) (p : Word), s.pc = p + 2 →
    (s.sp.val = 0 → exec .ret s = .fault (.stackUnderflow p.toNat)) ∧
    (∀ k : Fin 16, s.sp.val = k.val + 1 → ∃ t, exec .ret s = .next t ∧ t.sp.val = k.val ∧
      t.pc = s.stack[k.val] ∧ t.stack = s.stack ∧ onlyChanges [.pc, .stack] s t)

/-- A return after a call, whatever the callee did to everything but the stack, comes back to the address
after the call with the stack pointer as it was. -/
def Obligations.ReturnUndoesCall : Prop :=
  ∀ (nnn : Addr12) (s t u : State), exec (.call nnn) s = .next t → u.stack = t.stack → u.sp = t.sp →
    ∃ v, exec .ret u = .next v ∧ v.pc = s.pc ∧ v.sp = s.sp ∧ ∀ k : Fin 16, k.val < s.sp.val → v.stack[k.val] = s.stack[k.val]

/-- The four register skips: one extra advance of 2 when the condition holds, nothing else, and no fault. -/
def Obligations.CompareSkipResult : Prop :=
  ∀ (x y : Reg) (nn : Byte) (s : State) (p : Word), s.pc = p + 2 →
    (∃ t, exec (.seImm x nn) s = .next t ∧ t.pc = (if (s.reg x).toNat = nn.toNat then p + 4 else p + 2) ∧
      onlyChanges [.pc] s t) ∧
    (∃ t, exec (.sneImm x nn) s = .next t ∧ t.pc = (if (s.reg x).toNat = nn.toNat then p + 2 else p + 4) ∧
      onlyChanges [.pc] s t) ∧
    (∃ t, exec (.seReg x y) s = .next t ∧ t.pc = (if (s.reg x).toNat = (s.reg y).toNat then p + 4 else p + 2) ∧
      onlyChanges [.pc] s t) ∧
    (∃ t, exec (.sneReg x y) s = .next t ∧ t.pc = (if (s.reg x).toNat = (s.reg y).toNat then p + 2 else p + 4) ∧
      onlyChanges [.pc] s t)

/-! ### Registers and arithmetic -/

/-- 6XNN and 8XY0 write VX and nothing else. -/
def Obligations.LoadAndMoveResult : Prop :=
  ∀ (x y : Reg) (nn : Byte) (s : State),
    (∃ t, exec (.ldImm x nn) s = .next t ∧ t.reg x = nn ∧ onlyRegs [x] s t ∧ onlyChanges [.regs] s t) ∧
    (∃ t, exec (.ldReg x y) s = .next t ∧ t.reg x = s.reg y ∧ onlyRegs [x] s t ∧ onlyChanges [.regs] s t)

/-- 7XNN adds modulo 256 and writes no flag. -/
def Obligations.AddImmediateResult : Prop :=
  ∀ (x : Reg) (nn : Byte) (s : State),
    ∃ t, exec (.addImm x nn) s = .next t ∧ (t.reg x).toNat = ((s.reg x).toNat + nn.toNat) % 256 ∧
      onlyRegs [x] s t ∧ onlyChanges [.regs] s t

/-- 8XY1, 8XY2 and 8XY3 combine bit by bit and write no flag. -/
def Obligations.BitwiseResult : Prop :=
  ∀ (x y : Reg) (s : State),
    (∃ t, exec (.orReg x y) s = .next t ∧ onlyRegs [x] s t ∧ onlyChanges [.regs] s t ∧
      ∀ k < 8, (t.reg x).getLsbD k = ((s.reg x).getLsbD k || (s.reg y).getLsbD k)) ∧
    (∃ t, exec (.andReg x y) s = .next t ∧ onlyRegs [x] s t ∧ onlyChanges [.regs] s t ∧
      ∀ k < 8, (t.reg x).getLsbD k = ((s.reg x).getLsbD k && (s.reg y).getLsbD k)) ∧
    (∃ t, exec (.xorReg x y) s = .next t ∧ onlyRegs [x] s t ∧ onlyChanges [.regs] s t ∧
      ∀ k < 8, (t.reg x).getLsbD k = ((s.reg x).getLsbD k ^^ (s.reg y).getLsbD k))

/-- 8XY4: the sum modulo 256 to VX, then the carry to VF, so that with X = 15 the carry stays (R540; the order
for X = 15 is the spec's decision D3, log 5). -/
def Obligations.AddRegistersResult : Prop :=
  ∀ (x y : Reg) (s : State), ∃ t, exec (.addReg x y) s = .next t ∧
    (x ≠ 15 → (t.reg x).toNat = ((s.reg x).toNat + (s.reg y).toNat) % 256) ∧
    (t.reg 15).toNat = (if 256 ≤ (s.reg x).toNat + (s.reg y).toNat then 1 else 0) ∧
    onlyRegs [x, 15] s t ∧ onlyChanges [.regs] s t

/-- 8XY5: VX - VY modulo 256 to VX, then NOT borrow to VF (R550; for X = 15, decision D3, log 5). -/
def Obligations.SubtractResult : Prop :=
  ∀ (x y : Reg) (s : State), ∃ t, exec (.subReg x y) s = .next t ∧
    (x ≠ 15 → (t.reg x).toNat = ((s.reg x).toNat + 256 - (s.reg y).toNat) % 256) ∧
    (t.reg 15).toNat = (if (s.reg y).toNat ≤ (s.reg x).toNat then 1 else 0) ∧
    onlyRegs [x, 15] s t ∧ onlyChanges [.regs] s t

/-- 8XY7: VY - VX modulo 256 to VX, then NOT borrow to VF (R570; for X = 15, decision D3, log 5). -/
def Obligations.SubtractReverseResult : Prop :=
  ∀ (x y : Reg) (s : State), ∃ t, exec (.subnReg x y) s = .next t ∧
    (x ≠ 15 → (t.reg x).toNat = ((s.reg y).toNat + 256 - (s.reg x).toNat) % 256) ∧
    (t.reg 15).toNat = (if (s.reg x).toNat ≤ (s.reg y).toNat then 1 else 0) ∧
    onlyRegs [x, 15] s t ∧ onlyChanges [.regs] s t

/-- 8XY6: VX halved to VX, then its old bit 0 to VF; VY is not read (R560; for X = 15, decision D3, log 5). -/
def Obligations.ShiftRightResult : Prop :=
  ∀ (x y : Reg) (s : State), ∃ t, exec (.shr x y) s = .next t ∧
    (x ≠ 15 → (t.reg x).toNat = (s.reg x).toNat / 2) ∧ (t.reg 15).toNat = (s.reg x).toNat % 2 ∧
    onlyRegs [x, 15] s t ∧ onlyChanges [.regs] s t ∧ ∀ y', exec (.shr x y') s = .next t

/-- 8XYE: VX doubled modulo 256 to VX, then its old bit 7 to VF; VY is not read (R580; for X = 15, decision D3,
log 5). -/
def Obligations.ShiftLeftResult : Prop :=
  ∀ (x y : Reg) (s : State), ∃ t, exec (.shl x y) s = .next t ∧
    (x ≠ 15 → (t.reg x).toNat = 2 * (s.reg x).toNat % 256) ∧ (t.reg 15).toNat = (s.reg x).toNat / 128 ∧
    onlyRegs [x, 15] s t ∧ onlyChanges [.regs] s t ∧ ∀ y', exec (.shl x y') s = .next t

/-- CXNN: VX is the drawn byte AND NN, whatever byte is drawn; one draw an execution. `freeCount` and
`Config.randomByte` are the model's form of the draw (log 2). -/
def Obligations.RandomResult : Prop :=
  ∀ (x : Reg) (nn : Byte) (s : State), ∃ t, exec (.rnd x nn) s = .next t ∧
    (∀ k < 8, (t.reg x).getLsbD k = ((Config.randomByte s.freeCount).getLsbD k && nn.getLsbD k)) ∧
    (nn = 0 → t.reg x = 0) ∧ t.freeCount = s.freeCount + 1 ∧
    onlyRegs [x] s t ∧ onlyChanges [.regs, .freeCount] s t

/-! ### The address register and memory -/

/-- ANNN, FX1E and FX29 write I and nothing else: NNN; I + VX modulo 65536; 5 times VX, not masked. -/
def Obligations.AddressRegisterResult : Prop :=
  ∀ (x : Reg) (nnn : Addr12) (s : State),
    (∃ t, exec (.ldI nnn) s = .next t ∧ t.I.toNat = nnn.toNat ∧ onlyChanges [.addr] s t) ∧
    (∃ t, exec (.addI x) s = .next t ∧ t.I.toNat = (s.I.toNat + (s.reg x).toNat) % 65536 ∧ onlyChanges [.addr] s t) ∧
    (∃ t, exec (.ldFont x) s = .next t ∧ t.I.toNat = 5 * (s.reg x).toNat ∧ onlyChanges [.addr] s t)

/-- FX33 stores the three decimal digits of VX at I, I+1 and I+2 and changes no other byte; where one of the
three addresses is 4096 or more it faults and records the first such one. -/
def Obligations.BcdResult : Prop :=
  ∀ (x : Reg) (s : State), s.mem.wf = true →
    (s.dataAddr + 3 ≤ 4096 → ∃ t, exec (.bcd x) s = .next t ∧
      (t.mem.read s.dataAddr).toNat = (s.reg x).toNat / 100 ∧
      (t.mem.read (s.dataAddr + 1)).toNat = (s.reg x).toNat / 10 % 10 ∧
      (t.mem.read (s.dataAddr + 2)).toNat = (s.reg x).toNat % 10 ∧
      onlyBytes s.dataAddr 3 s t ∧ onlyChanges [.mem] s t) ∧
    (4096 < s.dataAddr + 3 → exec (.bcd x) s = .fault (.memOutOfBounds (max s.dataAddr 4096)))

/-- FX55 stores V0 to VX at I, I+1, … and changes no other byte and no register, I included (that I stays is
the spec's decision D11, log 9); where an address is 4096 or more it faults and records the first such one. -/
def Obligations.StoreRegistersResult : Prop :=
  ∀ (x : Reg) (s : State), s.mem.wf = true →
    (s.dataAddr + (x.val + 1) ≤ 4096 → ∃ t, exec (.storeRegs x) s = .next t ∧
      (∀ k : Reg, k.val ≤ x.val → t.mem.read (s.dataAddr + k.val) = s.reg k) ∧
      onlyBytes s.dataAddr (x.val + 1) s t ∧ onlyChanges [.mem] s t) ∧
    (4096 < s.dataAddr + (x.val + 1) → exec (.storeRegs x) s = .fault (.memOutOfBounds (max s.dataAddr 4096)))

/-- FX65 loads V0 to VX from I, I+1, … and changes no other register and no byte of memory, and not I (decision
D11, log 9); where an address is 4096 or more it faults and records the first such one. -/
def Obligations.LoadRegistersResult : Prop :=
  ∀ (x : Reg) (s : State),
    (s.dataAddr + (x.val + 1) ≤ 4096 → ∃ t, exec (.loadRegs x) s = .next t ∧
      (∀ k : Reg, k.val ≤ x.val → t.reg k = s.mem.read (s.dataAddr + k.val)) ∧
      (∀ k : Reg, x.val < k.val → t.reg k = s.reg k) ∧ onlyChanges [.regs] s t) ∧
    (4096 < s.dataAddr + (x.val + 1) → exec (.loadRegs x) s = .fault (.memOutOfBounds (max s.dataAddr 4096)))

/-- Loading back what FX55 stored, from the same I, restores V0 to VX, whatever happened to the registers in
between (that FX55 itself leaves I as it is rests on decision D11, log 9). -/
def Obligations.LoadUndoesStore : Prop :=
  ∀ (x : Reg) (s t u : State), s.mem.wf = true → exec (.storeRegs x) s = .next t →
    u.mem = t.mem → u.I = t.I →
    ∃ v, exec (.loadRegs x) u = .next v ∧ ∀ k : Reg, k.val ≤ x.val → v.reg k = s.reg k

/-- The next fetch sees every byte that FX55, FX33 or LOAD wrote, whether it falls on both bytes of the next word, on
one or on none, wherever the store starts; each other byte is as before. (Where LOAD writes is decision D12, log 17.) -/
def Obligations.StoredBytesAreFetched : Prop :=
  ∀ (x : Reg) (image : List Byte) (s : State), s.mem.wf = true → s.pc.toNat ≤ 4094 →
    (s.dataAddr + (x.val + 1) ≤ 4096 →
      let byte (a : Nat) : Byte :=
        if h : s.dataAddr ≤ a ∧ a < s.dataAddr + (x.val + 1) then s.reg ⟨a - s.dataAddr, by omega⟩ else s.mem.read a
      ∃ t, exec (.storeRegs x) s = .next t ∧
        fetchWord t = .ok (BitVec.ofNat 16 ((byte s.pc.toNat).toNat * 256 + (byte (s.pc.toNat + 1)).toNat))) ∧
    (s.dataAddr + 3 ≤ 4096 →
      let byte (a : Nat) : Nat :=
        if a = s.dataAddr then (s.reg x).toNat / 100
        else if a = s.dataAddr + 1 then (s.reg x).toNat / 10 % 10
        else if a = s.dataAddr + 2 then (s.reg x).toNat % 10
        else (s.mem.read a).toNat
      ∃ t, exec (.bcd x) s = .next t ∧
        fetchWord t = .ok (BitVec.ofNat 16 (byte s.pc.toNat * 256 + byte (s.pc.toNat + 1)))) ∧
    (image.length ≤ 3584 →
      let byte (a : Nat) : Byte :=
        if h : 0x200 ≤ a ∧ a < 0x200 + image.length then image[a - 0x200] else s.mem.read a
      fetchWord (command (.load image) s).1 =
        .ok (BitVec.ofNat 16 ((byte s.pc.toNat).toNat * 256 + (byte (s.pc.toNat + 1)).toNat)))

/-! ### The screen -/

/-- 00E0 turns every cell off and changes nothing else. -/
def Obligations.ClearResult : Prop :=
  ∀ s : State, ∃ t, exec .cls s = .next t ∧ (∀ cx cy, t.cell cx cy = false) ∧ onlyChanges [.screen] s t

/-- DXYN with at least one row: exactly the cells that the sprite's 1 bits reach are toggled, each axis wrapping,
and VF is 1 exactly when one of them was on; where a row's address is 4096 or more it faults and records the first
such one. -/
def Obligations.DrawResult : Prop :=
  ∀ (x y : Reg) (n : Nibble) (s : State), 1 ≤ n.toNat →
    (s.dataAddr + n.toNat ≤ 4096 → ∃ t, exec (.drw x y n) s = .next t ∧
      (∀ cx cy, t.cell cx cy ≠ s.cell cx cy ↔ s.spriteCovers x y n cx cy) ∧
      ((∃ cx cy, s.cell cx cy = true ∧ s.spriteCovers x y n cx cy) → t.reg 15 = 1) ∧
      ((¬∃ cx cy, s.cell cx cy = true ∧ s.spriteCovers x y n cx cy) → t.reg 15 = 0) ∧
      onlyRegs [15] s t ∧ onlyChanges [.regs, .screen] s t) ∧
    (4096 < s.dataAddr + n.toNat → exec (.drw x y n) s = .fault (.memOutOfBounds (max s.dataAddr 4096)))

/-- D XY0 draws no row: the screen is unchanged and VF is 0, wherever I points (decision D10, log 10). -/
def Obligations.DrawOfNoRows : Prop :=
  ∀ (x y : Reg) (s : State), ∃ t, exec (.drw x y 0) s = .next t ∧ t.fb = s.fb ∧ t.reg 15 = 0 ∧
    onlyRegs [15] s t ∧ onlyChanges [.regs] s t

/-- The same sprite drawn twice, with neither coordinate in VF: every cell is as before the first draw, and VF
is 1 exactly when a cell the sprite covers was off before the first draw, so that the first draw lit it. (R726 says
"has at least one 1 bit"; R720 gives the same but where every cell the sprite covers was on before the first draw,
and the model follows R720: log 28.) -/
def Obligations.SecondDrawErases : Prop :=
  ∀ (x y : Reg) (n : Nibble) (s t u : State), x ≠ 15 → y ≠ 15 →
    exec (.drw x y n) s = .next t → u = { t with pc := u.pc } →
    ∃ v, exec (.drw x y n) u = .next v ∧ v.fb = s.fb ∧
      ((∃ cx cy, s.cell cx cy = false ∧ s.spriteCovers x y n cx cy) → v.reg 15 = 1) ∧
      ((¬∃ cx cy, s.cell cx cy = false ∧ s.spriteCovers x y n cx cy) → v.reg 15 = 0)

/-! ### Keyboard and timers -/

/-- EX9E and EXA1: one extra advance of 2 when the key VX is, or is not, pressed; a VX of 16 or more faults and
is recorded (the spec's decision D7, log 7). -/
def Obligations.KeySkipResult : Prop :=
  ∀ (x : Reg) (s : State) (p : Word), s.pc = p + 2 →
    (∀ k : Fin 16, (s.reg x).toNat = k.val →
      (∃ t, exec (.skp x) s = .next t ∧ t.pc = (if s.key[k.val] = true then p + 4 else p + 2) ∧ onlyChanges [.pc] s t) ∧
      (∃ t, exec (.sknp x) s = .next t ∧ t.pc = (if s.key[k.val] = true then p + 2 else p + 4) ∧ onlyChanges [.pc] s t)) ∧
    (16 ≤ (s.reg x).toNat → exec (.skp x) s = .fault (.keyIndexOutOfRange (s.reg x).toNat) ∧
      exec (.sknp x) s = .fault (.keyIndexOutOfRange (s.reg x).toNat))

/-- FX0A: with a key pressed the lowest one goes to VX and `pc` stays advanced; with none pressed only `pc`
changes, back to the instruction. -/
def Obligations.WaitForKeyResult : Prop :=
  ∀ (x : Reg) (s : State) (p : Word), s.pc = p + 2 →
    (∀ k : Fin 16, s.key[k.val] = true → (∀ j : Fin 16, j < k → s.key[j.val] = false) →
      ∃ t, exec (.ldRegKey x) s = .next t ∧ (t.reg x).toNat = k.val ∧ onlyRegs [x] s t ∧ onlyChanges [.regs] s t) ∧
    (s.noKey → ∃ t, exec (.ldRegKey x) s = .next t ∧ t.pc = p ∧ onlyChanges [.pc] s t)

/-- Waiting is a spin: with FX0A at `pc` and no key pressed, any number of STEPs leaves the whole state as it is. -/
def Obligations.WaitingSpinsInPlace : Prop :=
  ∀ (x : Reg) (s : State) (n : Nat), s.fault = none → s.pc.toNat ≤ 4094 → s.noKey →
    decodeWord (BitVec.ofNat 16 ((s.mem.read s.pc.toNat).toNat * 256 + (s.mem.read (s.pc.toNat + 1)).toNat)) =
      some (.ldRegKey x) →
    Host.Core.run Sys2Proof.core n s = .next s

/-- FX07 reads the delay timer into VX; FX15 and FX18 write the delay and the sound timer from VX. -/
def Obligations.TimerInstructionResult : Prop :=
  ∀ (x : Reg) (s : State),
    (∃ t, exec (.ldRegDt x) s = .next t ∧ t.reg x = s.dt ∧ onlyRegs [x] s t ∧ onlyChanges [.regs] s t) ∧
    (∃ t, exec (.ldDtReg x) s = .next t ∧ t.dt = s.reg x ∧ onlyChanges [.dt] s t) ∧
    (∃ t, exec (.ldStReg x) s = .next t ∧ t.st = s.reg x ∧ onlyChanges [.st] s t)

/-- Memory that is zero from `pc` on is a run of NOPs: `n` STEPs advance `pc` by `2 * n` and change nothing
else, and the STEP that finds `pc` at the end of memory faults there. -/
def Obligations.ZeroMemoryRunsToTheEnd : Prop :=
  ∀ (s : State) (n : Nat), s.fault = none → s.pc.toNat + 2 * n ≤ 4096 →
    (∀ a, s.pc.toNat ≤ a → s.mem.read a = 0) →
    Host.Core.run Sys2Proof.core n s = .next { s with pc := BitVec.ofNat 16 (s.pc.toNat + 2 * n) } ∧
    (s.pc.toNat + 2 * n = 4096 → Host.Core.run Sys2Proof.core (n + 1) s = .fault (.fetchOutOfBounds 4096))

/-! ### Rules about all instructions -/

/-- R104: no instruction writes a data register but its destination and, for the six that write a flag, VF. -/
def Obligations.OnlyListedRegistersWritten : Prop :=
  ∀ (i : Instr) (s t : State), exec i s = .next t → ∀ r : Reg, i.writesReg r = false → t.reg r = s.reg r

/-- No instruction writes a part of the state outside its list: only 2NNN and 00EE the stack, only 00E0 and DXYN
the screen, only FX33 and FX55 memory, only ANNN, FX1E and FX29 I, only FX15 `dt`, only FX18 `st`, and none the
keyboard latch, the fault status or `sound_edge`. -/
def Obligations.OnlyListedPartsWritten : Prop :=
  ∀ (i : Instr) (s t : State), exec i s = .next t → onlyChanges i.writesParts s t

/-- No instruction reads the sound timer: with another value in it, every instruction does the same, and all but
FX18 keep that value. -/
def Obligations.SoundTimerIsNotRead : Prop :=
  ∀ (i : Instr) (s : State) (v : Byte),
    (∀ r, exec i s = .fault r → exec i { s with st := v } = .fault r) ∧
    (∀ t, exec i s = .next t → (∀ x, i ≠ .ldStReg x) → exec i { s with st := v } = .next { t with st := v })

/-- No instruction reads a stack slot that is not in use: two states that differ only in such slots go on
differing only in such slots. -/
def Obligations.StaleSlotsAreNotRead : Prop :=
  ∀ (i : Instr) (s s' : State), sameButStaleSlots s s' →
    (∀ r, exec i s = .fault r → exec i s' = .fault r) ∧
    (∀ t, exec i s = .next t → ∃ t', exec i s' = .next t' ∧ sameButStaleSlots t t')

/-! ### Commands of the host -/

/-- TICK: each timer counts down if it is not 0; `sound_edge` tells whether the sound timer went from 1 to 0
(decision D15, log 22); the port `tone_active` is on exactly when the sound timer is not 0; nothing else changes. -/
def Obligations.TickResult : Prop :=
  ∀ s : State, ∃ t, command .tick s = (t, .ok) ∧
    t.dt.toNat = s.dt.toNat - 1 ∧ t.st.toNat = s.st.toNat - 1 ∧
    (t.soundEdge = true ↔ s.st.toNat = 1) ∧ (t.toneActive = true ↔ 1 < s.st.toNat) ∧ onlyChanges [.dt, .st, .soundEdge] s t

/-- SET_KEY sets one latch entry (a 4-bit index, decision D16, log 25); READ_DISPLAY returns the screen as it is
(decision D24, log 16) and changes nothing. -/
def Obligations.KeyAndDisplayCommands : Prop :=
  ∀ (s : State) (k : Fin 16) (b : Bool),
    (∃ t, command (.setKey k b) s = (t, .ok) ∧ t.key[k.val] = b ∧
      (∀ j : Fin 16, j ≠ k → t.key[j.val] = s.key[j.val]) ∧ onlyChanges [.key] s t) ∧
    (∃ cells : Vector Bool 2048, command .readDisplay s = (s, .display cells) ∧
      ∀ cx cy, cells[cx.val + 64 * cy.val]'(by omega) = s.cell cx cy)

/-- LOAD copies an image that fits to 0x200 and changes nothing else (decision D12); a larger one is rejected and
changes nothing (decision D20; log 17). -/
def Obligations.LoadCommand : Prop :=
  ∀ (s : State) (image : List Byte), s.mem.wf = true →
    (3584 < image.length → command (.load image) s = (s, .loadTooLarge)) ∧
    (image.length ≤ 3584 → ∃ t, command (.load image) s = (t, .ok) ∧
      (∀ k v, image[k]? = some v → t.mem.read (0x200 + k) = v) ∧
      onlyBytes 0x200 image.length s t ∧ onlyChanges [.mem] s t)

/-- The state after construct and after RESET, from any state, holds every value of R140, whatever the font's bytes
are (D22, log 1). The latch, the fault status and `sound_edge` are the spec's decisions D9, D5 and D15 (logs 12, 15, 22). -/
def Obligations.ResetValues : Prop :=
  ∀ t : State, (t = State.reset ∨ ∃ s, t = (command .reset s).1) →
    (∀ a : Fin 80, t.mem.read a.val = Config.font a) ∧ (∀ a, 80 ≤ a → t.mem.read a = 0) ∧
    (∀ r, t.reg r = 0) ∧ t.I = 0 ∧ t.pc = 0x200 ∧ (∀ k : Fin 16, t.stack[k.val] = 0) ∧ t.sp = 0 ∧
    t.dt = 0 ∧ t.st = 0 ∧ (∀ cx cy, t.cell cx cy = false) ∧ t.noKey ∧ t.faultStatus = (0, 0) ∧ t.soundEdge = false

/-- A faulting STEP returns its fault and sets the status to the fault's code and value; from then on, until
RESET, no command changes the status, and a STEP changes nothing and returns the same fault (decision D5; logs 3, 15). -/
def Obligations.FaultStopsTheMachine : Prop :=
  (∀ (s : State) (r : Fault), s.fault = none → step s = .fault r →
    (command .step s).2 = .fault r ∧ (command .step s).1.faultStatus = (r.code, r.info)) ∧
  (∀ (s : State) (r : Fault), s.fault = some r → command .step s = (s, .fault r) ∧
    (∀ cs : List Command, .reset ∉ cs → (runCommands cs s).fault = some r) ∧
    (command .reset s).1.fault = none)

/-! ### Invariants -/

/-- Every STEP that completes keeps the good-state invariant: memory canonical, `pc` at most 0x10FE so that it
never wraps (R108), return addresses in 2 to 4096 (R410). -/
def Obligations.StepKeepsInvariant : Prop :=
  ∀ s t : State, s.Inv → step s = .next t → t.Inv

/-- The state after reset is good. -/
def Obligations.ResetMeetsInvariant : Prop := State.reset.Inv ∧ State.reset.Sound

/-- Every command of the host, STEPs that fault among them, keeps soundness, so any list of commands does. R910
leaves the state after a fault unspecified: that its memory is canonical there is the model's choice (log 3), and the
recorded value is that of the spec's decisions D5 and D6 (log 15). -/
def Obligations.CommandsKeepSoundness : Prop :=
  ∀ (cs : List Command) (s : State), s.Sound → (runCommands cs s).Sound

/-- In a good state `pc` never wraps: a completed STEP moves it by 0, 2 or 4, the addition exact, or is a jump, call
or return within 0x10FE. Which instruction makes which move is the statement ProgramCounterAfterStep. -/
def Obligations.ProgramCounterNeverWraps : Prop :=
  ∀ (s t : State), s.Inv → step s = .next t →
    s.pc.toNat ≤ 4094 ∧
    (t.pc.toNat = s.pc.toNat + 2 ∨ t.pc.toNat = s.pc.toNat + 4 ∨ t.pc.toNat = s.pc.toNat ∨
      t.pc.toNat ≤ 0x10FE ∧ ∃ i, (i = .ret ∨ ∃ nnn, i = .jp nnn ∨ i = .call nnn ∨ i = .jpV0 nnn) ∧
        fetchWord s = .ok (encodeWord i))

/-- R106, instruction by instruction: the instruction that a completed STEP fetches leaves `pc` exactly there, with no
addition wrapping (R108), in every state. -/
def Obligations.ProgramCounterAfterStep : Prop :=
  ∀ (s t : State) (i : Instr), fetchWord s = .ok (encodeWord i) → step s = .next t →
    let p := s.pc.toNat
    match i with
    | .jp nnn | .call nnn => t.pc.toNat = nnn.toNat
    | .jpV0 nnn => t.pc.toNat = nnn.toNat + (s.reg 0).toNat
    | .ret => ∃ k : Fin 16, s.sp.val = k.val + 1 ∧ t.pc = s.stack[k.val]
    | .seImm x nn => t.pc.toNat = if s.reg x = nn then p + 4 else p + 2
    | .sneImm x nn => t.pc.toNat = if s.reg x = nn then p + 2 else p + 4
    | .seReg x y => t.pc.toNat = if s.reg x = s.reg y then p + 4 else p + 2
    | .sneReg x y => t.pc.toNat = if s.reg x = s.reg y then p + 2 else p + 4
    | .skp x => ∃ k : Fin 16, (s.reg x).toNat = k.val ∧ t.pc.toNat = if s.key[k.val] = true then p + 4 else p + 2
    | .sknp x => ∃ k : Fin 16, (s.reg x).toNat = k.val ∧ t.pc.toNat = if s.key[k.val] = true then p + 2 else p + 4
    | .ldRegKey _ => (s.noKey → t.pc.toNat = p) ∧ (¬s.noKey → t.pc.toNat = p + 2)
    | .nop | .cls | .ldImm _ _ | .addImm _ _ | .ldReg _ _ | .orReg _ _ | .andReg _ _ | .xorReg _ _ | .addReg _ _
    | .subReg _ _ | .shr _ _ | .subnReg _ _ | .shl _ _ | .ldI _ | .rnd _ _ | .drw _ _ _ | .ldRegDt _ | .ldDtReg _
    | .ldStReg _ | .addI _ | .ldFont _ | .bcd _ | .storeRegs _ | .loadRegs _ => t.pc.toNat = p + 2
end

