-- ==== Sys2Proof/Laws/Memory.lean ====
section
/-! SUPPORT. The laws of memory: reading after writing, and that every operation keeps the canonical form. -/

namespace Sys2Proof.Machine

@[simp] theorem Memory.read_nil (a : Nat) : Memory.read [] a = unlistedByte a := rfl

theorem Memory.read_pair (k : Nat) (v : Byte) (m : Memory) (a : Nat) :
    Memory.read ((k, v) :: m) a = if k = a then v else Memory.read m a := rfl

theorem Memory.wfFrom_pair (lo k : Nat) (v : Byte) (m : Memory) :
    Memory.wfFrom lo ((k, v) :: m) = true ↔
      lo ≤ k ∧ k < 4096 ∧ v ≠ unlistedByte k ∧ Memory.wfFrom (k + 1) m = true := by
  simp [Memory.wfFrom, and_assoc]

/-- The canonical form from an address on is one from any lower address on. -/
theorem Memory.wfFrom_mono {m : Memory} {lo lo' : Nat} (h : Memory.wfFrom lo m = true) (hl : lo' ≤ lo) :
    Memory.wfFrom lo' m = true := by
  cases m with
  | nil => rfl
  | cons p m =>
    rw [Memory.wfFrom_pair] at h ⊢
    exact ⟨Nat.le_trans hl h.1, h.2⟩

/-- Below the first address it lists, canonical memory reads as reset left it. -/
theorem Memory.read_below {m : Memory} {lo a : Nat} (h : Memory.wfFrom lo m = true) (ha : a < lo) :
    Memory.read m a = unlistedByte a := by
  induction m generalizing lo with
  | nil => rfl
  | cons p m ih =>
    rw [Memory.wfFrom_pair] at h
    rw [Memory.read_pair, if_neg (by omega)]
    exact ih h.2.2.2 (by omega)

theorem Memory.read_cons {m : Memory} {a : Nat} (v : Byte) (h : Memory.wfFrom (a + 1) m = true) (b : Nat) :
    Memory.read (Memory.cons a v m) b = if b = a then v else Memory.read m b := by
  unfold Memory.cons
  split
  · next hv =>
    split
    · next hb => rw [hb, Memory.read_below h (Nat.lt_succ_self a), hv]
    · rfl
  · rw [Memory.read_pair]
    simp only [eq_comm]

theorem Memory.wfFrom_cons {m : Memory} {lo a : Nat} (v : Byte) (hl : lo ≤ a) (ha : a < 4096)
    (h : Memory.wfFrom (a + 1) m = true) : Memory.wfFrom lo (Memory.cons a v m) = true := by
  unfold Memory.cons
  split
  · exact Memory.wfFrom_mono h (by omega)
  · next hv => exact (Memory.wfFrom_pair ..).2 ⟨hl, ha, hv, h⟩

theorem Memory.write_pair (k : Nat) (w : Byte) (m : Memory) (a : Nat) (v : Byte) :
    Memory.write ((k, w) :: m) a v =
      if a < k then Memory.cons a v ((k, w) :: m) else if a = k then Memory.cons a v m
      else (k, w) :: Memory.write m a v := rfl

/-- Reading after a write in memory canonical from `lo` on. -/
theorem Memory.read_write_from {m : Memory} {lo : Nat} (h : Memory.wfFrom lo m = true) (a b : Nat) (v : Byte) :
    Memory.read (Memory.write m a v) b = if b = a then v else Memory.read m b := by
  induction m generalizing lo with
  | nil => exact Memory.read_cons v rfl b
  | cons p m ih =>
    obtain ⟨k, w⟩ := p
    have h' := (Memory.wfFrom_pair ..).1 h
    rw [Memory.write_pair]
    split
    · next hk => exact Memory.read_cons v ((Memory.wfFrom_pair ..).2 ⟨hk, h'.2⟩) b
    · split
      · next hk =>
        rw [Memory.read_cons v (hk ▸ h'.2.2.2) b, Memory.read_pair]
        split
        · rfl
        · next hb => rw [if_neg (fun e => hb (by omega))]
      · next hk =>
        rw [Memory.read_pair, Memory.read_pair, ih h'.2.2.2]
        split
        · next hb => rw [if_neg (by omega)]
        · rfl

theorem Memory.wfFrom_write {m : Memory} {lo a : Nat} (h : Memory.wfFrom lo m = true) (hl : lo ≤ a) (ha : a < 4096)
    (v : Byte) : Memory.wfFrom lo (Memory.write m a v) = true := by
  induction m generalizing lo with
  | nil => exact Memory.wfFrom_cons v hl ha rfl
  | cons p m ih =>
    obtain ⟨k, w⟩ := p
    have h' := (Memory.wfFrom_pair ..).1 h
    rw [Memory.write_pair]
    split
    · next hk => exact Memory.wfFrom_cons v hl ha ((Memory.wfFrom_pair ..).2 ⟨hk, h'.2⟩)
    · split
      · next hk => exact Memory.wfFrom_cons v hl ha (hk ▸ h'.2.2.2)
      · next hk =>
        exact (Memory.wfFrom_pair ..).2 ⟨h'.1, h'.2.1, h'.2.2.1, ih h'.2.2.2 (by omega)⟩

/-- A read returns the byte last written there, and a write leaves every other byte alone (R208, R213). -/
theorem Memory.read_write {m : Memory} (h : m.wf = true) (a b : Nat) (v : Byte) :
    Memory.read (Memory.write m a v) b = if b = a then v else Memory.read m b :=
  Memory.read_write_from h a b v

/-- A write below 4096 keeps the canonical form. -/
theorem Memory.wf_write {m : Memory} (h : m.wf = true) {a : Nat} (ha : a < 4096) (v : Byte) :
    Memory.wf (Memory.write m a v) = true :=
  Memory.wfFrom_write h (Nat.zero_le a) ha v

/-- Writing a string of bytes below 4096 keeps the canonical form. -/
theorem Memory.wf_writeAll {m : Memory} (h : m.wf = true) {a : Nat} {bs : List Byte} (ha : a + bs.length ≤ 4096) :
    Memory.wf (Memory.writeAll m a bs) = true := by
  induction bs generalizing m a with
  | nil => exact h
  | cons b bs ih =>
    rw [List.length_cons] at ha
    exact ih (Memory.wf_write h (by omega) b) (by omega)

/-- Reading after writing a string of bytes: the string's byte inside it, the old byte outside. -/
theorem Memory.read_writeAll {m : Memory} (h : m.wf = true) {a : Nat} {bs : List Byte} (ha : a + bs.length ≤ 4096)
    (b : Nat) :
    Memory.read (Memory.writeAll m a bs) b = if a ≤ b then (bs[b - a]?).getD (Memory.read m b) else Memory.read m b := by
  induction bs generalizing m a with
  | nil => simp [Memory.writeAll]
  | cons v bs ih =>
    rw [List.length_cons] at ha
    rw [Memory.writeAll, ih (Memory.wf_write h (by omega) v) (by omega), Memory.read_write h]
    rcases Nat.lt_trichotomy a b with hb | hb | hb
    · have : b - a = (b - (a + 1)) + 1 := by omega
      simp [show a + 1 ≤ b by omega, show a ≤ b by omega, show b ≠ a by omega, this]
    · subst hb
      simp
    · simp [show ¬a + 1 ≤ b by omega, show ¬a ≤ b by omega, show b ≠ a by omega]

/-- `tabulate` gives canonical memory, whatever the bytes. -/
theorem Memory.wfFrom_tabulate (f : Nat → Byte) {a n : Nat} (h : a + n ≤ 4096) :
    Memory.wfFrom a (Memory.tabulate f a n) = true := by
  induction n generalizing a with
  | zero => rfl
  | succ n ih => exact Memory.wfFrom_cons _ (Nat.le_refl a) (by omega) (ih (by omega))

/-- The state a fault leaves has canonical memory, whatever the free values are. -/
theorem afterFault_mem_wf (r : Fault) (s : State) : (s.afterFault r).mem.wf = true :=
  Memory.wfFrom_tabulate _ (Nat.le_refl 4096)

/-- Memory at reset is canonical. -/
theorem reset_mem_wf : State.reset.mem.wf = true := rfl

end Sys2Proof.Machine
end

