-- ==== Sys2Proof/Laws/State.lean ====
section
/-! SUPPORT. One lemma per field per update, so that no proof unfolds a record update; and the laws of reading a
register after an update. -/

namespace Sys2Proof.Machine

/-! ### setReg -/

@[simp] theorem setReg_mem (s : State) (r : Reg) (v : Byte) : (s.setReg r v).mem = s.mem := rfl
@[simp] theorem setReg_x (s : State) (r : Reg) (v : Byte) : (s.setReg r v).x = s.x.set r.val v := rfl
@[simp] theorem setReg_I (s : State) (r : Reg) (v : Byte) : (s.setReg r v).I = s.I := rfl
@[simp] theorem setReg_pc (s : State) (r : Reg) (v : Byte) : (s.setReg r v).pc = s.pc := rfl
@[simp] theorem setReg_stack (s : State) (r : Reg) (v : Byte) : (s.setReg r v).stack = s.stack := rfl
@[simp] theorem setReg_sp (s : State) (r : Reg) (v : Byte) : (s.setReg r v).sp = s.sp := rfl
@[simp] theorem setReg_dt (s : State) (r : Reg) (v : Byte) : (s.setReg r v).dt = s.dt := rfl
@[simp] theorem setReg_st (s : State) (r : Reg) (v : Byte) : (s.setReg r v).st = s.st := rfl
@[simp] theorem setReg_key (s : State) (r : Reg) (v : Byte) : (s.setReg r v).key = s.key := rfl
@[simp] theorem setReg_fb (s : State) (r : Reg) (v : Byte) : (s.setReg r v).fb = s.fb := rfl
@[simp] theorem setReg_fault (s : State) (r : Reg) (v : Byte) : (s.setReg r v).fault = s.fault := rfl
@[simp] theorem setReg_soundEdge (s : State) (r : Reg) (v : Byte) : (s.setReg r v).soundEdge = s.soundEdge := rfl
@[simp] theorem setReg_freeCount (s : State) (r : Reg) (v : Byte) : (s.setReg r v).freeCount = s.freeCount := rfl

/-! ### setPc -/

@[simp] theorem setPc_mem (s : State) (v : Word) : (s.setPc v).mem = s.mem := rfl
@[simp] theorem setPc_x (s : State) (v : Word) : (s.setPc v).x = s.x := rfl
@[simp] theorem setPc_I (s : State) (v : Word) : (s.setPc v).I = s.I := rfl
@[simp] theorem setPc_pc (s : State) (v : Word) : (s.setPc v).pc = v := rfl
@[simp] theorem setPc_stack (s : State) (v : Word) : (s.setPc v).stack = s.stack := rfl
@[simp] theorem setPc_sp (s : State) (v : Word) : (s.setPc v).sp = s.sp := rfl
@[simp] theorem setPc_dt (s : State) (v : Word) : (s.setPc v).dt = s.dt := rfl
@[simp] theorem setPc_st (s : State) (v : Word) : (s.setPc v).st = s.st := rfl
@[simp] theorem setPc_key (s : State) (v : Word) : (s.setPc v).key = s.key := rfl
@[simp] theorem setPc_fb (s : State) (v : Word) : (s.setPc v).fb = s.fb := rfl
@[simp] theorem setPc_fault (s : State) (v : Word) : (s.setPc v).fault = s.fault := rfl
@[simp] theorem setPc_soundEdge (s : State) (v : Word) : (s.setPc v).soundEdge = s.soundEdge := rfl
@[simp] theorem setPc_freeCount (s : State) (v : Word) : (s.setPc v).freeCount = s.freeCount := rfl

/-! ### setI -/

@[simp] theorem setI_mem (s : State) (v : Word) : (s.setI v).mem = s.mem := rfl
@[simp] theorem setI_x (s : State) (v : Word) : (s.setI v).x = s.x := rfl
@[simp] theorem setI_I (s : State) (v : Word) : (s.setI v).I = v := rfl
@[simp] theorem setI_pc (s : State) (v : Word) : (s.setI v).pc = s.pc := rfl
@[simp] theorem setI_stack (s : State) (v : Word) : (s.setI v).stack = s.stack := rfl
@[simp] theorem setI_sp (s : State) (v : Word) : (s.setI v).sp = s.sp := rfl
@[simp] theorem setI_dt (s : State) (v : Word) : (s.setI v).dt = s.dt := rfl
@[simp] theorem setI_st (s : State) (v : Word) : (s.setI v).st = s.st := rfl
@[simp] theorem setI_key (s : State) (v : Word) : (s.setI v).key = s.key := rfl
@[simp] theorem setI_fb (s : State) (v : Word) : (s.setI v).fb = s.fb := rfl
@[simp] theorem setI_fault (s : State) (v : Word) : (s.setI v).fault = s.fault := rfl
@[simp] theorem setI_soundEdge (s : State) (v : Word) : (s.setI v).soundEdge = s.soundEdge := rfl
@[simp] theorem setI_freeCount (s : State) (v : Word) : (s.setI v).freeCount = s.freeCount := rfl

/-! ### setDt -/

@[simp] theorem setDt_mem (s : State) (v : Byte) : (s.setDt v).mem = s.mem := rfl
@[simp] theorem setDt_x (s : State) (v : Byte) : (s.setDt v).x = s.x := rfl
@[simp] theorem setDt_I (s : State) (v : Byte) : (s.setDt v).I = s.I := rfl
@[simp] theorem setDt_pc (s : State) (v : Byte) : (s.setDt v).pc = s.pc := rfl
@[simp] theorem setDt_stack (s : State) (v : Byte) : (s.setDt v).stack = s.stack := rfl
@[simp] theorem setDt_sp (s : State) (v : Byte) : (s.setDt v).sp = s.sp := rfl
@[simp] theorem setDt_dt (s : State) (v : Byte) : (s.setDt v).dt = v := rfl
@[simp] theorem setDt_st (s : State) (v : Byte) : (s.setDt v).st = s.st := rfl
@[simp] theorem setDt_key (s : State) (v : Byte) : (s.setDt v).key = s.key := rfl
@[simp] theorem setDt_fb (s : State) (v : Byte) : (s.setDt v).fb = s.fb := rfl
@[simp] theorem setDt_fault (s : State) (v : Byte) : (s.setDt v).fault = s.fault := rfl
@[simp] theorem setDt_soundEdge (s : State) (v : Byte) : (s.setDt v).soundEdge = s.soundEdge := rfl
@[simp] theorem setDt_freeCount (s : State) (v : Byte) : (s.setDt v).freeCount = s.freeCount := rfl

/-! ### setSt -/

@[simp] theorem setSt_mem (s : State) (v : Byte) : (s.setSt v).mem = s.mem := rfl
@[simp] theorem setSt_x (s : State) (v : Byte) : (s.setSt v).x = s.x := rfl
@[simp] theorem setSt_I (s : State) (v : Byte) : (s.setSt v).I = s.I := rfl
@[simp] theorem setSt_pc (s : State) (v : Byte) : (s.setSt v).pc = s.pc := rfl
@[simp] theorem setSt_stack (s : State) (v : Byte) : (s.setSt v).stack = s.stack := rfl
@[simp] theorem setSt_sp (s : State) (v : Byte) : (s.setSt v).sp = s.sp := rfl
@[simp] theorem setSt_dt (s : State) (v : Byte) : (s.setSt v).dt = s.dt := rfl
@[simp] theorem setSt_st (s : State) (v : Byte) : (s.setSt v).st = v := rfl
@[simp] theorem setSt_key (s : State) (v : Byte) : (s.setSt v).key = s.key := rfl
@[simp] theorem setSt_fb (s : State) (v : Byte) : (s.setSt v).fb = s.fb := rfl
@[simp] theorem setSt_fault (s : State) (v : Byte) : (s.setSt v).fault = s.fault := rfl
@[simp] theorem setSt_soundEdge (s : State) (v : Byte) : (s.setSt v).soundEdge = s.soundEdge := rfl
@[simp] theorem setSt_freeCount (s : State) (v : Byte) : (s.setSt v).freeCount = s.freeCount := rfl

/-! ### setMem -/

@[simp] theorem setMem_mem (s : State) (m : Memory) : (s.setMem m).mem = m := rfl
@[simp] theorem setMem_x (s : State) (m : Memory) : (s.setMem m).x = s.x := rfl
@[simp] theorem setMem_I (s : State) (m : Memory) : (s.setMem m).I = s.I := rfl
@[simp] theorem setMem_pc (s : State) (m : Memory) : (s.setMem m).pc = s.pc := rfl
@[simp] theorem setMem_stack (s : State) (m : Memory) : (s.setMem m).stack = s.stack := rfl
@[simp] theorem setMem_sp (s : State) (m : Memory) : (s.setMem m).sp = s.sp := rfl
@[simp] theorem setMem_dt (s : State) (m : Memory) : (s.setMem m).dt = s.dt := rfl
@[simp] theorem setMem_st (s : State) (m : Memory) : (s.setMem m).st = s.st := rfl
@[simp] theorem setMem_key (s : State) (m : Memory) : (s.setMem m).key = s.key := rfl
@[simp] theorem setMem_fb (s : State) (m : Memory) : (s.setMem m).fb = s.fb := rfl
@[simp] theorem setMem_fault (s : State) (m : Memory) : (s.setMem m).fault = s.fault := rfl
@[simp] theorem setMem_soundEdge (s : State) (m : Memory) : (s.setMem m).soundEdge = s.soundEdge := rfl
@[simp] theorem setMem_freeCount (s : State) (m : Memory) : (s.setMem m).freeCount = s.freeCount := rfl

/-! ### setRegs -/

@[simp] theorem setRegs_mem (s : State) (y : Vector Byte 16) : (s.setRegs y).mem = s.mem := rfl
@[simp] theorem setRegs_x (s : State) (y : Vector Byte 16) : (s.setRegs y).x = y := rfl
@[simp] theorem setRegs_I (s : State) (y : Vector Byte 16) : (s.setRegs y).I = s.I := rfl
@[simp] theorem setRegs_pc (s : State) (y : Vector Byte 16) : (s.setRegs y).pc = s.pc := rfl
@[simp] theorem setRegs_stack (s : State) (y : Vector Byte 16) : (s.setRegs y).stack = s.stack := rfl
@[simp] theorem setRegs_sp (s : State) (y : Vector Byte 16) : (s.setRegs y).sp = s.sp := rfl
@[simp] theorem setRegs_dt (s : State) (y : Vector Byte 16) : (s.setRegs y).dt = s.dt := rfl
@[simp] theorem setRegs_st (s : State) (y : Vector Byte 16) : (s.setRegs y).st = s.st := rfl
@[simp] theorem setRegs_key (s : State) (y : Vector Byte 16) : (s.setRegs y).key = s.key := rfl
@[simp] theorem setRegs_fb (s : State) (y : Vector Byte 16) : (s.setRegs y).fb = s.fb := rfl
@[simp] theorem setRegs_fault (s : State) (y : Vector Byte 16) : (s.setRegs y).fault = s.fault := rfl
@[simp] theorem setRegs_soundEdge (s : State) (y : Vector Byte 16) : (s.setRegs y).soundEdge = s.soundEdge := rfl
@[simp] theorem setRegs_freeCount (s : State) (y : Vector Byte 16) : (s.setRegs y).freeCount = s.freeCount := rfl

/-! ### setScreen -/

@[simp] theorem setScreen_mem (s : State) (f : Screen) : (s.setScreen f).mem = s.mem := rfl
@[simp] theorem setScreen_x (s : State) (f : Screen) : (s.setScreen f).x = s.x := rfl
@[simp] theorem setScreen_I (s : State) (f : Screen) : (s.setScreen f).I = s.I := rfl
@[simp] theorem setScreen_pc (s : State) (f : Screen) : (s.setScreen f).pc = s.pc := rfl
@[simp] theorem setScreen_stack (s : State) (f : Screen) : (s.setScreen f).stack = s.stack := rfl
@[simp] theorem setScreen_sp (s : State) (f : Screen) : (s.setScreen f).sp = s.sp := rfl
@[simp] theorem setScreen_dt (s : State) (f : Screen) : (s.setScreen f).dt = s.dt := rfl
@[simp] theorem setScreen_st (s : State) (f : Screen) : (s.setScreen f).st = s.st := rfl
@[simp] theorem setScreen_key (s : State) (f : Screen) : (s.setScreen f).key = s.key := rfl
@[simp] theorem setScreen_fb (s : State) (f : Screen) : (s.setScreen f).fb = f := rfl
@[simp] theorem setScreen_fault (s : State) (f : Screen) : (s.setScreen f).fault = s.fault := rfl
@[simp] theorem setScreen_soundEdge (s : State) (f : Screen) : (s.setScreen f).soundEdge = s.soundEdge := rfl
@[simp] theorem setScreen_freeCount (s : State) (f : Screen) : (s.setScreen f).freeCount = s.freeCount := rfl

/-! ### advancePc -/

@[simp] theorem advancePc_mem (s : State) : s.advancePc.mem = s.mem := rfl
@[simp] theorem advancePc_x (s : State) : s.advancePc.x = s.x := rfl
@[simp] theorem advancePc_I (s : State) : s.advancePc.I = s.I := rfl
@[simp] theorem advancePc_pc (s : State) : s.advancePc.pc = s.pc + 2 := rfl
@[simp] theorem advancePc_stack (s : State) : s.advancePc.stack = s.stack := rfl
@[simp] theorem advancePc_sp (s : State) : s.advancePc.sp = s.sp := rfl
@[simp] theorem advancePc_dt (s : State) : s.advancePc.dt = s.dt := rfl
@[simp] theorem advancePc_st (s : State) : s.advancePc.st = s.st := rfl
@[simp] theorem advancePc_key (s : State) : s.advancePc.key = s.key := rfl
@[simp] theorem advancePc_fb (s : State) : s.advancePc.fb = s.fb := rfl
@[simp] theorem advancePc_fault (s : State) : s.advancePc.fault = s.fault := rfl
@[simp] theorem advancePc_soundEdge (s : State) : s.advancePc.soundEdge = s.soundEdge := rfl
@[simp] theorem advancePc_freeCount (s : State) : s.advancePc.freeCount = s.freeCount := rfl

/-! ### skipIf, setResultThenFlag, drawByte -/

@[simp] theorem skipIf_mem (c : Bool) (s : State) : (s.skipIf c).mem = s.mem := by cases c <;> rfl
@[simp] theorem skipIf_x (c : Bool) (s : State) : (s.skipIf c).x = s.x := by cases c <;> rfl
@[simp] theorem skipIf_I (c : Bool) (s : State) : (s.skipIf c).I = s.I := by cases c <;> rfl
@[simp] theorem skipIf_pc (c : Bool) (s : State) : (s.skipIf c).pc = if c then s.pc + 2 else s.pc := by
  cases c <;> rfl
@[simp] theorem skipIf_stack (c : Bool) (s : State) : (s.skipIf c).stack = s.stack := by cases c <;> rfl
@[simp] theorem skipIf_sp (c : Bool) (s : State) : (s.skipIf c).sp = s.sp := by cases c <;> rfl
@[simp] theorem skipIf_dt (c : Bool) (s : State) : (s.skipIf c).dt = s.dt := by cases c <;> rfl
@[simp] theorem skipIf_st (c : Bool) (s : State) : (s.skipIf c).st = s.st := by cases c <;> rfl
@[simp] theorem skipIf_key (c : Bool) (s : State) : (s.skipIf c).key = s.key := by cases c <;> rfl
@[simp] theorem skipIf_fb (c : Bool) (s : State) : (s.skipIf c).fb = s.fb := by cases c <;> rfl
@[simp] theorem skipIf_fault (c : Bool) (s : State) : (s.skipIf c).fault = s.fault := by cases c <;> rfl
@[simp] theorem skipIf_soundEdge (c : Bool) (s : State) : (s.skipIf c).soundEdge = s.soundEdge := by cases c <;> rfl
@[simp] theorem skipIf_freeCount (c : Bool) (s : State) : (s.skipIf c).freeCount = s.freeCount := by cases c <;> rfl

@[simp] theorem setResultThenFlag_mem (s : State) (r : Reg) (v f : Byte) : (s.setResultThenFlag r v f).mem = s.mem := rfl
@[simp] theorem setResultThenFlag_x (s : State) (r : Reg) (v f : Byte) :
    (s.setResultThenFlag r v f).x = (s.x.set r.val v).set vf.val f := rfl
@[simp] theorem setResultThenFlag_I (s : State) (r : Reg) (v f : Byte) : (s.setResultThenFlag r v f).I = s.I := rfl
@[simp] theorem setResultThenFlag_pc (s : State) (r : Reg) (v f : Byte) : (s.setResultThenFlag r v f).pc = s.pc := rfl
@[simp] theorem setResultThenFlag_stack (s : State) (r : Reg) (v f : Byte) : (s.setResultThenFlag r v f).stack = s.stack := rfl
@[simp] theorem setResultThenFlag_sp (s : State) (r : Reg) (v f : Byte) : (s.setResultThenFlag r v f).sp = s.sp := rfl
@[simp] theorem setResultThenFlag_dt (s : State) (r : Reg) (v f : Byte) : (s.setResultThenFlag r v f).dt = s.dt := rfl
@[simp] theorem setResultThenFlag_st (s : State) (r : Reg) (v f : Byte) : (s.setResultThenFlag r v f).st = s.st := rfl
@[simp] theorem setResultThenFlag_key (s : State) (r : Reg) (v f : Byte) : (s.setResultThenFlag r v f).key = s.key := rfl
@[simp] theorem setResultThenFlag_fb (s : State) (r : Reg) (v f : Byte) : (s.setResultThenFlag r v f).fb = s.fb := rfl
@[simp] theorem setResultThenFlag_fault (s : State) (r : Reg) (v f : Byte) : (s.setResultThenFlag r v f).fault = s.fault := rfl
@[simp] theorem setResultThenFlag_soundEdge (s : State) (r : Reg) (v f : Byte) : (s.setResultThenFlag r v f).soundEdge = s.soundEdge := rfl
@[simp] theorem setResultThenFlag_freeCount (s : State) (r : Reg) (v f : Byte) : (s.setResultThenFlag r v f).freeCount = s.freeCount := rfl

@[simp] theorem drawByte_mem (s : State) : s.drawByte.2.mem = s.mem := rfl
@[simp] theorem drawByte_x (s : State) : s.drawByte.2.x = s.x := rfl
@[simp] theorem drawByte_I (s : State) : s.drawByte.2.I = s.I := rfl
@[simp] theorem drawByte_pc (s : State) : s.drawByte.2.pc = s.pc := rfl
@[simp] theorem drawByte_stack (s : State) : s.drawByte.2.stack = s.stack := rfl
@[simp] theorem drawByte_sp (s : State) : s.drawByte.2.sp = s.sp := rfl
@[simp] theorem drawByte_dt (s : State) : s.drawByte.2.dt = s.dt := rfl
@[simp] theorem drawByte_st (s : State) : s.drawByte.2.st = s.st := rfl
@[simp] theorem drawByte_key (s : State) : s.drawByte.2.key = s.key := rfl
@[simp] theorem drawByte_fb (s : State) : s.drawByte.2.fb = s.fb := rfl
@[simp] theorem drawByte_fault (s : State) : s.drawByte.2.fault = s.fault := rfl
@[simp] theorem drawByte_soundEdge (s : State) : s.drawByte.2.soundEdge = s.soundEdge := rfl
@[simp] theorem drawByte_freeCount (s : State) : s.drawByte.2.freeCount = s.freeCount + 1 := rfl

@[simp] theorem drawByte_byte (s : State) : s.drawByte.1 = Config.randomByte s.freeCount := rfl

/-! ### Reading a register after an update -/

/-- A register reads back the last value written; the others are untouched (R102). -/
@[simp] theorem reg_setReg (s : State) (r q : Reg) (v : Byte) : (s.setReg r v).reg q = if q = r then v else s.reg q := by
  simp only [State.reg, setReg_x, Vector.getElem_set, Fin.ext_iff, eq_comm]

@[simp] theorem reg_setPc (s : State) (v : Word) (q : Reg) : (s.setPc v).reg q = s.reg q := rfl
@[simp] theorem reg_setI (s : State) (v : Word) (q : Reg) : (s.setI v).reg q = s.reg q := rfl
@[simp] theorem reg_setDt (s : State) (v : Byte) (q : Reg) : (s.setDt v).reg q = s.reg q := rfl
@[simp] theorem reg_setSt (s : State) (v : Byte) (q : Reg) : (s.setSt v).reg q = s.reg q := rfl
@[simp] theorem reg_setMem (s : State) (m : Memory) (q : Reg) : (s.setMem m).reg q = s.reg q := rfl
@[simp] theorem reg_setScreen (s : State) (f : Screen) (q : Reg) : (s.setScreen f).reg q = s.reg q := rfl
@[simp] theorem reg_advancePc (s : State) (q : Reg) : s.advancePc.reg q = s.reg q := rfl
@[simp] theorem reg_setRegs (s : State) (y : Vector Byte 16) (q : Reg) : (s.setRegs y).reg q = y[q.val] := rfl
@[simp] theorem reg_skipIf (c : Bool) (s : State) (q : Reg) : (s.skipIf c).reg q = s.reg q := by cases c <;> rfl
@[simp] theorem reg_drawByte (s : State) (q : Reg) : s.drawByte.2.reg q = s.reg q := rfl

/-- The flag is written last: VF holds it whatever the destination (R596). -/
@[simp] theorem reg_setResultThenFlag (s : State) (r q : Reg) (v f : Byte) :
    (s.setResultThenFlag r v f).reg q = if q = 15 then f else if q = r then v else s.reg q := by
  simp only [State.setResultThenFlag, vf, reg_setReg]

end Sys2Proof.Machine
end

