-- ==== Sys2Proof/Laws/Ops.lean ====
section
/-! SUPPORT. What each shared operation can do, said once: when it answers, what it answers, and when it faults. -/

namespace Sys2Proof.Machine

/-! ### Bytes -/

theorem memRead_eq (m : Memory) (a : Nat) :
    memRead m a = if a < 4096 then .ok (m.read a) else .error (.memOutOfBounds a) := rfl

theorem memWrite_eq (m : Memory) (a : Nat) (v : Byte) :
    memWrite m a v = if a < 4096 then .ok (m.write a v) else .error (.memOutOfBounds a) := rfl

/-- Reads inside memory answer the bytes, in order (R207). -/
theorem readBytes_ok (m : Memory) {a n : Nat} (h : n = 0 ∨ a + n ≤ 4096) :
    readBytes m a n = .ok ((List.range n).map fun k => m.read (a + k)) := by
  induction n generalizing a with
  | zero => rfl
  | succ n ih =>
    rw [readBytes, memRead_eq, if_pos (by omega), ih (by omega)]
    simp [List.range_succ_eq_map, Function.comp_def, Nat.add_comm, Nat.add_left_comm]

/-- Reads that leave memory fault at the first address outside (R210, R905). -/
theorem readBytes_fault (m : Memory) {a n : Nat} (hn : n ≠ 0) (h : 4096 < a + n) :
    readBytes m a n = .error (.memOutOfBounds (max a 4096)) := by
  induction n generalizing a with
  | zero => exact absurd rfl hn
  | succ n ih =>
    rw [readBytes, memRead_eq]
    by_cases ha : a < 4096
    · rw [if_pos ha, ih (by omega) (by omega), show max (a + 1) 4096 = max a 4096 by omega]
    · rw [if_neg ha, show max a 4096 = a by omega]

/-- Writes inside memory answer the written memory (R207). -/
theorem writeBytes_ok (m : Memory) {a : Nat} {bs : List Byte} (h : bs = [] ∨ a + bs.length ≤ 4096) :
    writeBytes m a bs = .ok (m.writeAll a bs) := by
  induction bs generalizing m a with
  | nil => rfl
  | cons b bs ih =>
    have h' : a + (bs.length + 1) ≤ 4096 := h.resolve_left (List.cons_ne_nil b bs)
    rw [writeBytes, memWrite_eq, if_pos (by omega)]
    exact ih _ (Or.inr (by omega))

/-- Writes that leave memory fault at the first address outside (R210, R905). -/
theorem writeBytes_fault (m : Memory) {a : Nat} {bs : List Byte} (hb : bs ≠ []) (h : 4096 < a + bs.length) :
    writeBytes m a bs = .error (.memOutOfBounds (max a 4096)) := by
  induction bs generalizing m a with
  | nil => exact absurd rfl hb
  | cons b bs ih =>
    rw [List.length_cons] at h
    rw [writeBytes, memWrite_eq]
    by_cases ha : a < 4096
    · rw [if_pos ha]
      have hbs : bs ≠ [] := by
        rintro rfl
        simp at h
        omega
      rw [show max a 4096 = max (a + 1) 4096 by omega]
      exact ih _ hbs (by omega)
    · rw [if_neg ha, show max a 4096 = a by omega]

/-- All that `readBytes` can do. -/
theorem readBytes_cases (m : Memory) (a n : Nat) :
    ((n = 0 ∨ a + n ≤ 4096) ∧ readBytes m a n = .ok ((List.range n).map fun k => m.read (a + k))) ∨
    (n ≠ 0 ∧ 4096 < a + n ∧ readBytes m a n = .error (.memOutOfBounds (max a 4096))) := by
  by_cases h : n = 0 ∨ a + n ≤ 4096
  · exact .inl ⟨h, readBytes_ok m h⟩
  · exact .inr ⟨by omega, by omega, readBytes_fault m (by omega) (by omega)⟩

/-- All that `writeBytes` can do to a non-empty string of bytes. -/
theorem writeBytes_cases (m : Memory) (a : Nat) {bs : List Byte} (hb : bs ≠ []) :
    (a + bs.length ≤ 4096 ∧ writeBytes m a bs = .ok (m.writeAll a bs)) ∨
    (4096 < a + bs.length ∧ writeBytes m a bs = .error (.memOutOfBounds (max a 4096))) := by
  by_cases h : a + bs.length ≤ 4096
  · exact .inl ⟨h, writeBytes_ok m (.inr h)⟩
  · exact .inr ⟨by omega, writeBytes_fault m hb (by omega)⟩

/-! ### Fetch -/

/-- A fetch inside memory answers the big-endian word (R320, R204). -/
theorem fetchWord_ok {s : State} (h : s.pc.toNat ≤ 4094) :
    fetchWord s = .ok (joinBytes (s.mem.read s.pc.toNat) (s.mem.read (s.pc.toNat + 1))) := by
  rw [fetchWord, if_neg (by omega), memRead_eq, memRead_eq, if_pos (by omega), if_pos (by omega)]

/-- A fetch past the end faults (R209). -/
theorem fetchWord_fault {s : State} (h : 4094 < s.pc.toNat) :
    fetchWord s = .error (.fetchOutOfBounds s.pc.toNat) := by
  rw [fetchWord, if_pos h]

theorem joinBytes_toNat (hi lo : Byte) : (joinBytes hi lo).toNat = hi.toNat * 256 + lo.toNat := by
  simp only [joinBytes, BitVec.toNat_ofNat]
  omega

/-! ### The return stack -/

theorem push_ok (s : State) (v : Word) (h : s.sp.val < 16) :
    s.push v = .ok { s with stack := s.stack.set s.sp.val v, sp := ⟨s.sp.val + 1, by omega⟩ } :=
  dif_pos h

theorem push_fault (s : State) (v : Word) (h : s.sp.val = 16) : s.push v = .error (.stackOverflow s.instrAddr.toNat) :=
  dif_neg (by omega)

theorem pop_ok (s : State) (h : 0 < s.sp.val) :
    s.pop = .ok (s.stack[s.sp.val - 1]'(by omega), { s with sp := ⟨s.sp.val - 1, by omega⟩ }) :=
  dif_pos h

theorem pop_fault (s : State) (h : s.sp.val = 0) : s.pop = .error (.stackUnderflow s.instrAddr.toNat) :=
  dif_neg (by omega)

/-- The instruction's address is the `pc` that the fetch advanced (R105, R320). -/
theorem instrAddr_eq {s : State} {p : Word} (h : s.pc = p + 2) : s.instrAddr = p := by
  simp [State.instrAddr, h]

/-! ### Keyboard -/

theorem keyAt_ok (s : State) {k : Byte} (h : k.toNat < 16) : s.keyAt k = .ok s.key[k.toNat] := dif_pos h

theorem keyAt_fault (s : State) {k : Byte} (h : 16 ≤ k.toNat) : s.keyAt k = .error (.keyIndexOutOfRange k.toNat) :=
  dif_neg (by omega)

/-- No key is found exactly when none is pressed. -/
theorem lowestKey_none (s : State) : s.lowestKey = none ↔ ∀ k : Fin 16, s.key[k.val] = false := by
  simp [State.lowestKey]

/-- The key found is pressed, and no lower one is (R830). -/
theorem lowestKey_some (s : State) (k : Fin 16) :
    s.lowestKey = some k ↔ s.key[k.val] = true ∧ ∀ j : Fin 16, j < k → s.key[j.val] = false := by
  unfold State.lowestKey
  rw [List.find?_eq_some_iff_getElem]
  constructor
  · rintro ⟨hk, i, hi, he, hlt⟩
    refine ⟨hk, fun j hj => ?_⟩
    have hik : i = k.val := by simpa [Fin.ext_iff] using he
    have := hlt j.val (by rw [hik]; exact hj)
    simpa using this
  · rintro ⟨hk, hlt⟩
    refine ⟨hk, k.val, by simp, by simp, fun j hj => ?_⟩
    have := hlt ⟨j, by omega⟩ hj
    simpa using this

/-! ### The register file as a block -/

@[simp] theorem regsUpTo_length (s : State) (x : Reg) : (s.regsUpTo x).length = x.val + 1 := by
  simp [State.regsUpTo]

/-- Byte `k` of V0 to VX is Vk. -/
theorem regsUpTo_get (s : State) (x k : Reg) (h : k.val ≤ x.val) : (s.regsUpTo x)[k.val]? = some (s.reg k) := by
  simp [State.regsUpTo, State.reg, Nat.lt_succ_of_le h]

/-- Filling writes the bytes from register `k` on and leaves the others alone. -/
theorem fillRegs_get (k : Nat) (bs : List Byte) (x : Vector Byte 16) (j : Nat) (hj : j < 16) :
    (fillRegs k bs x)[j] = if k ≤ j then (bs[j - k]?).getD x[j] else x[j] := by
  induction bs generalizing k x with
  | nil => simp [fillRegs]
  | cons b bs ih =>
    rw [fillRegs, ih, Vector.getElem_setIfInBounds]
    rcases Nat.lt_trichotomy k j with h | h | h
    · have : j - k = (j - (k + 1)) + 1 := by omega
      simp [show k + 1 ≤ j by omega, show k ≤ j by omega, show k ≠ j by omega, this]
    · subst h
      simp
    · simp [show ¬k + 1 ≤ j by omega, show ¬k ≤ j by omega, show k ≠ j by omega]

/-! ### The screen -/

/-- Toggling a cell changes that cell alone. -/
theorem cell_toggle (fb : Screen) (k j : Fin 2048) :
    Screen.cell (Screen.toggle fb k) j = if j = k then !Screen.cell fb j else Screen.cell fb j := by
  simp only [Screen.cell, Screen.toggle, Fin.ext_iff, Vector.getElem_set]
  by_cases hrow : k.val / 64 = j.val / 64
  · by_cases hcol : j.val % 64 = k.val % 64
    · have hjk : j.val = k.val := by omega
      simp [hjk, Nat.mod_lt]
    · have hjk : j.val ≠ k.val := fun e => hcol (by rw [e])
      simp [hrow, hjk, Ne.symm hcol]
  · have hjk : j.val ≠ k.val := fun e => hrow (by rw [e])
    simp [hrow, hjk]

/-- Two screens with the same cells are the same screen. -/
theorem screen_ext {f g : Screen} (h : ∀ k, Screen.cell f k = Screen.cell g k) : f = g := by
  refine Vector.ext fun y hy => BitVec.eq_of_getLsbD_eq fun x hx => ?_
  have hk := h ⟨x + 64 * y, by omega⟩
  simpa only [Screen.cell, show (x + 64 * y) / 64 = y by omega, show (x + 64 * y) % 64 = x by omega] using hk

@[simp] theorem cell_clear (k : Fin 2048) : Screen.cell Screen.clear k = false := by
  simp [Screen.cell, Screen.clear]

theorem plot_cell (k : Fin 2048) (c : Canvas) (j : Fin 2048) :
    Screen.cell (plot k c).1 j = if j = k then !Screen.cell c.1 j else Screen.cell c.1 j :=
  cell_toggle c.1 k j

theorem plot_hit (k : Fin 2048) (c : Canvas) : (plot k c).2 = (c.2 || Screen.cell c.1 k) := rfl

end Sys2Proof.Machine
end

