-- ==== Sys2Proof/Laws/Display.lean ====
section
/-! SUPPORT. Drawing, as the toggling of a list of distinct cells (spec/43_display.md R720, R722). -/

namespace Sys2Proof.Machine

/-- The cells that the 1 bits of one sprite row reach. -/
def rowCells (baseX baseY : Byte) (row : Nat) (b : Byte) : List (Fin 2048) :=
  ((List.range 8).filter fun col => b.getLsbD (7 - col)).map (spriteCell baseX baseY row)

/-- The cells that the 1 bits of the sprite rows reach, in drawing order. -/
def spriteCells (baseX baseY : Byte) : Nat → List Byte → List (Fin 2048)
  | _, [] => []
  | row, b :: bs => rowCells baseX baseY row b ++ spriteCells baseX baseY (row + 1) bs

/-- Toggle the cells of a list, in order. -/
def plotAll (ks : List (Fin 2048)) (c : Canvas) : Canvas := ks.foldl (fun c k => plot k c) c

theorem plotAll_append (ks ls : List (Fin 2048)) (c : Canvas) : plotAll (ks ++ ls) c = plotAll ls (plotAll ks c) :=
  List.foldl_append

theorem drawRow_eq (baseX baseY : Byte) (row : Nat) (b : Byte) (c : Canvas) :
    drawRow baseX baseY row b c = plotAll (rowCells baseX baseY row b) c := by
  simp only [drawRow, plotAll, rowCells, List.foldl_map, List.foldl_filter]

/-- Drawing is toggling the sprite's cells. -/
theorem drawRows_eq (baseX baseY : Byte) (row : Nat) (bs : List Byte) (c : Canvas) :
    drawRows baseX baseY row bs c = plotAll (spriteCells baseX baseY row bs) c := by
  induction bs generalizing row c with
  | nil => rfl
  | cons b bs ih => rw [drawRows, ih, drawRow_eq, spriteCells, plotAll_append]

/-- Toggling distinct cells negates exactly those cells. -/
theorem plotAll_cell {ks : List (Fin 2048)} (h : ks.Nodup) (c : Canvas) (j : Fin 2048) :
    Screen.cell (plotAll ks c).1 j = if j ∈ ks then !Screen.cell c.1 j else Screen.cell c.1 j := by
  induction ks generalizing c with
  | nil => simp [plotAll]
  | cons k ks ih =>
    rw [List.nodup_cons] at h
    show Screen.cell (plotAll ks (plot k c)).1 j = _
    rw [ih h.2, plot_cell]
    by_cases hj : j = k
    · subst hj
      simp [h.1]
    · simp [hj]

/-- Toggling distinct cells reports a collision exactly when one of them was on at the start. -/
theorem plotAll_hit {ks : List (Fin 2048)} (h : ks.Nodup) (c : Canvas) :
    (plotAll ks c).2 = (c.2 || ks.any fun k => Screen.cell c.1 k) := by
  induction ks generalizing c with
  | nil => simp [plotAll]
  | cons k ks ih =>
    rw [List.nodup_cons] at h
    show (plotAll ks (plot k c)).2 = _
    rw [ih h.2, plot_hit, List.any_cons, Bool.or_assoc]
    congr 2
    rw [Bool.eq_iff_iff, List.any_eq_true, List.any_eq_true]
    refine exists_congr fun j => and_congr_right fun hj => ?_
    rw [plot_cell, if_neg (fun e => h.1 (by rw [← e]; exact hj))]

theorem spriteCell_eq_iff (baseX baseY : Byte) (row col row' col' : Nat) :
    spriteCell baseX baseY row col = spriteCell baseX baseY row' col' ↔
      (baseX.toNat + col) % 64 = (baseX.toNat + col') % 64 ∧ (baseY.toNat + row) % 32 = (baseY.toNat + row') % 32 := by
  rw [Fin.ext_iff]
  show (_ + 64 * _ = _ + 64 * _) ↔ _
  omega

theorem mem_rowCells (baseX baseY : Byte) (row : Nat) (b : Byte) (k : Fin 2048) :
    k ∈ rowCells baseX baseY row b ↔ ∃ col < 8, b.getLsbD (7 - col) = true ∧ k = spriteCell baseX baseY row col := by
  simp only [rowCells, List.mem_map, List.mem_filter, List.mem_range]
  exact exists_congr fun col =>
    ⟨fun h => ⟨h.1.1, h.1.2, h.2.symm⟩, fun h => ⟨⟨h.1, h.2.1⟩, h.2.2.symm⟩⟩

/-- The cells a sprite covers, by row and column. -/
theorem mem_spriteCells (baseX baseY : Byte) (row : Nat) (bs : List Byte) (k : Fin 2048) :
    k ∈ spriteCells baseX baseY row bs ↔
      ∃ i col, ∃ hi : i < bs.length, col < 8 ∧ (bs[i]).getLsbD (7 - col) = true ∧
        k = spriteCell baseX baseY (row + i) col := by
  induction bs generalizing row with
  | nil => simp [spriteCells]
  | cons b bs ih =>
    rw [spriteCells, List.mem_append, mem_rowCells, ih]
    constructor
    · rintro (⟨col, hc, hb, rfl⟩ | ⟨i, col, hi, hc, hb, rfl⟩)
      · exact ⟨0, col, by simp, hc, hb, rfl⟩
      · exact ⟨i + 1, col, by simpa using hi, hc, hb, by rw [Nat.add_assoc, Nat.add_comm 1 i]⟩
    · rintro ⟨i, col, hi, hc, hb, rfl⟩
      cases i with
      | zero => exact .inl ⟨col, hc, hb, rfl⟩
      | succ i =>
        exact .inr ⟨i, col, by simpa using hi, hc, hb, by rw [Nat.add_assoc, Nat.add_comm 1 i]⟩

/-- One row's cells are distinct: 8 columns are distinct modulo 64 (R722). -/
theorem rowCells_nodup (baseX baseY : Byte) (row : Nat) (b : Byte) : (rowCells baseX baseY row b).Nodup := by
  refine List.Nodup.map_on ?_ (List.nodup_range.filter _)
  intro i hi j hj h
  simp only [List.mem_filter, List.mem_range] at hi hj
  have := (spriteCell_eq_iff ..).1 h
  omega

/-- A sprite of at most 32 rows never covers a cell twice (R722). -/
theorem spriteCells_nodup (baseX baseY : Byte) (row : Nat) (bs : List Byte) (h : bs.length ≤ 32) :
    (spriteCells baseX baseY row bs).Nodup := by
  induction bs generalizing row with
  | nil => exact List.nodup_nil
  | cons b bs ih =>
    rw [List.length_cons] at h
    rw [spriteCells, List.nodup_append]
    refine ⟨rowCells_nodup .., ih _ (by omega), ?_⟩
    rintro k hk l hl rfl
    obtain ⟨col, _, _, rfl⟩ := (mem_rowCells ..).1 hk
    obtain ⟨i, col', hi, _, _, he⟩ := (mem_spriteCells ..).1 hl
    have := (spriteCell_eq_iff ..).1 he
    omega

end Sys2Proof.Machine
end

