-- ==== Sys2Proof/Laws/Encoding.lean ====
section
/-! SUPPORT. The fields of a word as arithmetic, and the laws of the encoder's formats. -/

namespace Sys2Proof

theorem fieldOp_eq (w : Word) : fieldOp w = w.toNat / 4096 := by
  have := w.isLt
  simp [fieldOp, Nat.shiftRight_eq_div_pow]
  omega

@[simp] theorem fieldX_val (w : Word) : (fieldX w).val = w.toNat / 256 % 16 := by
  simp [fieldX, Nat.shiftRight_eq_div_pow]

@[simp] theorem fieldY_val (w : Word) : (fieldY w).val = w.toNat / 16 % 16 := by
  simp [fieldY, Nat.shiftRight_eq_div_pow]

@[simp] theorem fieldN_toNat (w : Word) : (fieldN w).toNat = w.toNat % 16 := by
  simp [fieldN]

@[simp] theorem fieldNN_toNat (w : Word) : (fieldNN w).toNat = w.toNat % 256 := by
  simp [fieldNN]

@[simp] theorem fieldNNN_toNat (w : Word) : (fieldNNN w).toNat = w.toNat % 4096 := by
  simp [fieldNNN]

@[simp] theorem encodeAddr_toNat (op : Nat) (nnn : Addr12) (h : op < 16) :
    (encodeAddr op nnn).toNat = op * 4096 + nnn.toNat := by
  have := nnn.isLt
  simp [encodeAddr]
  omega

@[simp] theorem encodeRegImm_toNat (op : Nat) (x : Reg) (nn : Byte) (h : op < 16) :
    (encodeRegImm op x nn).toNat = op * 4096 + x.val * 256 + nn.toNat := by
  have := nn.isLt
  simp [encodeRegImm]
  omega

@[simp] theorem encodeRegReg_toNat (op : Nat) (x y : Reg) (f : Nat) (h : op < 16) (hf : f < 16) :
    (encodeRegReg op x y f).toNat = op * 4096 + x.val * 256 + y.val * 16 + f := by
  simp [encodeRegReg, ofNibbles]
  omega

/-- The two bytes of a word join to the word (R204). -/
@[simp] theorem joinBytes_high_low (w : Word) : joinBytes (highByte w) (lowByte w) = w := by
  have := w.isLt
  apply BitVec.eq_of_toNat_eq
  simp [joinBytes, highByte, lowByte, Nat.shiftRight_eq_div_pow]
  omega

/-! ### Masks of R340 -/

theorem and_op_mask (w : Word) : w &&& 0xF000#16 = (w >>> 12) <<< 12 := by
  apply BitVec.eq_of_getLsbD_eq
  intro i hi
  interval_cases i <;> simp

/-- Matching a row that fixes the first nibble alone. -/
theorem and_op_mask_toNat (w : Word) : (w &&& 0xF000#16).toNat = w.toNat / 4096 * 4096 := by
  rw [and_op_mask]
  have := w.isLt
  simp only [BitVec.toNat_shiftLeft, BitVec.toNat_ushiftRight, Nat.shiftRight_eq_div_pow, Nat.shiftLeft_eq]
  omega

/-- Matching a row that fixes the first and the last nibble. -/
theorem and_op_n_mask_toNat (w : Word) : (w &&& 0xF00F#16).toNat = w.toNat / 4096 * 4096 + w.toNat % 16 := by
  have h : w &&& 0xF00F#16 = (w &&& 0xF000#16) ||| (w &&& 0x000F#16) := by
    apply BitVec.eq_of_getLsbD_eq
    intro i hi
    interval_cases i <;> simp
  have h0 : (w &&& 0xF000#16) &&& (w &&& 0x000F#16) = 0#16 := by
    apply BitVec.eq_of_getLsbD_eq
    intro i hi
    interval_cases i <;> simp
  have hn : (w &&& 0x000F#16).toNat = w.toNat % 16 := by
    simp only [BitVec.toNat_and, BitVec.toNat_ofNat, Nat.reducePow, Nat.reduceMod]
    exact Nat.and_two_pow_sub_one_eq_mod w.toNat 4
  have := w.isLt
  rw [h, ← BitVec.add_eq_or_of_and_eq_zero _ _ h0, BitVec.toNat_add, and_op_mask_toNat, hn]
  omega

/-- Matching a row that fixes the first nibble and the low byte. -/
theorem and_op_nn_mask_toNat (w : Word) : (w &&& 0xF0FF#16).toNat = w.toNat / 4096 * 4096 + w.toNat % 256 := by
  have h : w &&& 0xF0FF#16 = (w &&& 0xF000#16) ||| (w &&& 0x00FF#16) := by
    apply BitVec.eq_of_getLsbD_eq
    intro i hi
    interval_cases i <;> simp
  have h0 : (w &&& 0xF000#16) &&& (w &&& 0x00FF#16) = 0#16 := by
    apply BitVec.eq_of_getLsbD_eq
    intro i hi
    interval_cases i <;> simp
  have hn : (w &&& 0x00FF#16).toNat = w.toNat % 256 := by
    simp only [BitVec.toNat_and, BitVec.toNat_ofNat, Nat.reducePow, Nat.reduceMod]
    exact Nat.and_two_pow_sub_one_eq_mod w.toNat 8
  have := w.isLt
  rw [h, ← BitVec.add_eq_or_of_and_eq_zero _ _ h0, BitVec.toNat_add, and_op_mask_toNat, hn]
  omega

/-- No instruction is ill-formed: its operands are in range by type (log 25). -/
theorem Instr.wellFormed_all (i : Instr) : i.wellFormed = true := by
  cases i <;> simp [Instr.wellFormed] <;> omega

end Sys2Proof
end

