-- ==== Sys2Proof/Laws/PerInstr.lean ====
section
/-! SUPPORT. Statements made per instruction. `WordMatchesRow`: the word of an instruction matches a row of R340,
and only that row's fixed nibbles are fixed. -/

namespace Sys2Proof.Laws

/-- The row of R340 that stands for an instruction. -/
def WordMatchesRow.row : Instr → OpcodeRow
  | .nop => ⟨0xFFFF, 0x0000⟩
  | .cls => ⟨0xFFFF, 0x00E0⟩
  | .ret => ⟨0xFFFF, 0x00EE⟩
  | .jp _ => ⟨0xF000, 0x1000⟩
  | .call _ => ⟨0xF000, 0x2000⟩
  | .seImm _ _ => ⟨0xF000, 0x3000⟩
  | .sneImm _ _ => ⟨0xF000, 0x4000⟩
  | .seReg _ _ => ⟨0xF00F, 0x5000⟩
  | .ldImm _ _ => ⟨0xF000, 0x6000⟩
  | .addImm _ _ => ⟨0xF000, 0x7000⟩
  | .ldReg _ _ => ⟨0xF00F, 0x8000⟩
  | .orReg _ _ => ⟨0xF00F, 0x8001⟩
  | .andReg _ _ => ⟨0xF00F, 0x8002⟩
  | .xorReg _ _ => ⟨0xF00F, 0x8003⟩
  | .addReg _ _ => ⟨0xF00F, 0x8004⟩
  | .subReg _ _ => ⟨0xF00F, 0x8005⟩
  | .shr _ _ => ⟨0xF00F, 0x8006⟩
  | .subnReg _ _ => ⟨0xF00F, 0x8007⟩
  | .shl _ _ => ⟨0xF00F, 0x800E⟩
  | .sneReg _ _ => ⟨0xF00F, 0x9000⟩
  | .ldI _ => ⟨0xF000, 0xA000⟩
  | .jpV0 _ => ⟨0xF000, 0xB000⟩
  | .rnd _ _ => ⟨0xF000, 0xC000⟩
  | .drw _ _ _ => ⟨0xF000, 0xD000⟩
  | .skp _ => ⟨0xF0FF, 0xE09E⟩
  | .sknp _ => ⟨0xF0FF, 0xE0A1⟩
  | .ldRegDt _ => ⟨0xF0FF, 0xF007⟩
  | .ldRegKey _ => ⟨0xF0FF, 0xF00A⟩
  | .ldDtReg _ => ⟨0xF0FF, 0xF015⟩
  | .ldStReg _ => ⟨0xF0FF, 0xF018⟩
  | .addI _ => ⟨0xF0FF, 0xF01E⟩
  | .ldFont _ => ⟨0xF0FF, 0xF029⟩
  | .bcd _ => ⟨0xF0FF, 0xF033⟩
  | .storeRegs _ => ⟨0xF0FF, 0xF055⟩
  | .loadRegs _ => ⟨0xF0FF, 0xF065⟩

/-- The instruction's row is one of the 35, and its word matches it. -/
def WordMatchesRow.Statement (i : Instr) : Prop :=
  WordMatchesRow.row i ∈ opcodeRows ∧ (WordMatchesRow.row i).matchesWord (encodeWord i) = true

/-- Every instruction's row is one of the 35. -/
theorem row_mem (i : Instr) : WordMatchesRow.row i ∈ opcodeRows := by
  cases i <;> simp [WordMatchesRow.row, opcodeRows, opcodeRowsLow, opcodeRowsMiddle, opcodeRowsHigh]

/-- Matching a row that fixes the first nibble alone. -/
theorem matches_op {r : OpcodeRow} {w : Word} (hr : r.mask = 0xF000#16) (h : w.toNat / 4096 * 4096 = r.bits.toNat) :
    r.matchesWord w = true := by
  refine beq_iff_eq.2 (BitVec.eq_of_toNat_eq ?_)
  rw [hr, and_op_mask_toNat, h]

/-- Matching a row that fixes the first and the last nibble. -/
theorem matches_op_n {r : OpcodeRow} {w : Word} (hr : r.mask = 0xF00F#16)
    (h : w.toNat / 4096 * 4096 + w.toNat % 16 = r.bits.toNat) : r.matchesWord w = true := by
  refine beq_iff_eq.2 (BitVec.eq_of_toNat_eq ?_)
  rw [hr, and_op_n_mask_toNat, h]

/-- Matching a row that fixes the first nibble and the low byte. -/
theorem matches_op_nn {r : OpcodeRow} {w : Word} (hr : r.mask = 0xF0FF#16)
    (h : w.toNat / 4096 * 4096 + w.toNat % 256 = r.bits.toNat) : r.matchesWord w = true := by
  refine beq_iff_eq.2 (BitVec.eq_of_toNat_eq ?_)
  rw [hr, and_op_nn_mask_toNat, h]

theorem WordMatchesRow.nop : WordMatchesRow.Statement .nop := ⟨row_mem _, rfl⟩

theorem WordMatchesRow.cls : WordMatchesRow.Statement .cls := ⟨row_mem _, rfl⟩

theorem WordMatchesRow.ret : WordMatchesRow.Statement .ret := ⟨row_mem _, rfl⟩

theorem WordMatchesRow.jp (nnn : Addr12) : WordMatchesRow.Statement (.jp nnn) :=
  ⟨row_mem _, matches_op rfl (by have := nnn.isLt; simp [encodeWord, WordMatchesRow.row]; omega)⟩

theorem WordMatchesRow.call (nnn : Addr12) : WordMatchesRow.Statement (.call nnn) :=
  ⟨row_mem _, matches_op rfl (by have := nnn.isLt; simp [encodeWord, WordMatchesRow.row]; omega)⟩

theorem WordMatchesRow.seImm (x : Reg) (nn : Byte) : WordMatchesRow.Statement (.seImm x nn) :=
  ⟨row_mem _, matches_op rfl (by have := nn.isLt; simp [encodeWord, WordMatchesRow.row]; omega)⟩

theorem WordMatchesRow.sneImm (x : Reg) (nn : Byte) : WordMatchesRow.Statement (.sneImm x nn) :=
  ⟨row_mem _, matches_op rfl (by have := nn.isLt; simp [encodeWord, WordMatchesRow.row]; omega)⟩

theorem WordMatchesRow.seReg (x y : Reg) : WordMatchesRow.Statement (.seReg x y) :=
  ⟨row_mem _, matches_op_n rfl (by simp [encodeWord, WordMatchesRow.row]; omega)⟩

theorem WordMatchesRow.ldImm (x : Reg) (nn : Byte) : WordMatchesRow.Statement (.ldImm x nn) :=
  ⟨row_mem _, matches_op rfl (by have := nn.isLt; simp [encodeWord, WordMatchesRow.row]; omega)⟩

theorem WordMatchesRow.addImm (x : Reg) (nn : Byte) : WordMatchesRow.Statement (.addImm x nn) :=
  ⟨row_mem _, matches_op rfl (by have := nn.isLt; simp [encodeWord, WordMatchesRow.row]; omega)⟩

theorem WordMatchesRow.ldReg (x y : Reg) : WordMatchesRow.Statement (.ldReg x y) :=
  ⟨row_mem _, matches_op_n rfl (by simp [encodeWord, WordMatchesRow.row]; omega)⟩

theorem WordMatchesRow.orReg (x y : Reg) : WordMatchesRow.Statement (.orReg x y) :=
  ⟨row_mem _, matches_op_n rfl (by simp [encodeWord, WordMatchesRow.row]; omega)⟩

theorem WordMatchesRow.andReg (x y : Reg) : WordMatchesRow.Statement (.andReg x y) :=
  ⟨row_mem _, matches_op_n rfl (by simp [encodeWord, WordMatchesRow.row]; omega)⟩

theorem WordMatchesRow.xorReg (x y : Reg) : WordMatchesRow.Statement (.xorReg x y) :=
  ⟨row_mem _, matches_op_n rfl (by simp [encodeWord, WordMatchesRow.row]; omega)⟩

theorem WordMatchesRow.addReg (x y : Reg) : WordMatchesRow.Statement (.addReg x y) :=
  ⟨row_mem _, matches_op_n rfl (by simp [encodeWord, WordMatchesRow.row]; omega)⟩

theorem WordMatchesRow.subReg (x y : Reg) : WordMatchesRow.Statement (.subReg x y) :=
  ⟨row_mem _, matches_op_n rfl (by simp [encodeWord, WordMatchesRow.row]; omega)⟩

theorem WordMatchesRow.shr (x y : Reg) : WordMatchesRow.Statement (.shr x y) :=
  ⟨row_mem _, matches_op_n rfl (by simp [encodeWord, WordMatchesRow.row]; omega)⟩

theorem WordMatchesRow.subnReg (x y : Reg) : WordMatchesRow.Statement (.subnReg x y) :=
  ⟨row_mem _, matches_op_n rfl (by simp [encodeWord, WordMatchesRow.row]; omega)⟩

theorem WordMatchesRow.shl (x y : Reg) : WordMatchesRow.Statement (.shl x y) :=
  ⟨row_mem _, matches_op_n rfl (by simp [encodeWord, WordMatchesRow.row]; omega)⟩

theorem WordMatchesRow.sneReg (x y : Reg) : WordMatchesRow.Statement (.sneReg x y) :=
  ⟨row_mem _, matches_op_n rfl (by simp [encodeWord, WordMatchesRow.row]; omega)⟩

theorem WordMatchesRow.ldI (nnn : Addr12) : WordMatchesRow.Statement (.ldI nnn) :=
  ⟨row_mem _, matches_op rfl (by have := nnn.isLt; simp [encodeWord, WordMatchesRow.row]; omega)⟩

theorem WordMatchesRow.jpV0 (nnn : Addr12) : WordMatchesRow.Statement (.jpV0 nnn) :=
  ⟨row_mem _, matches_op rfl (by have := nnn.isLt; simp [encodeWord, WordMatchesRow.row]; omega)⟩

theorem WordMatchesRow.rnd (x : Reg) (nn : Byte) : WordMatchesRow.Statement (.rnd x nn) :=
  ⟨row_mem _, matches_op rfl (by have := nn.isLt; simp [encodeWord, WordMatchesRow.row]; omega)⟩

theorem WordMatchesRow.drw (x y : Reg) (n : Nibble) : WordMatchesRow.Statement (.drw x y n) :=
  ⟨row_mem _, matches_op rfl (by
    have := n.isLt
    simp only [encodeWord, WordMatchesRow.row]
    rw [encodeRegReg_toNat _ _ _ _ (by omega) n.isLt]
    simp
    omega)⟩

theorem WordMatchesRow.skp (x : Reg) : WordMatchesRow.Statement (.skp x) :=
  ⟨row_mem _, matches_op_nn rfl (by simp [encodeWord, WordMatchesRow.row]; omega)⟩

theorem WordMatchesRow.sknp (x : Reg) : WordMatchesRow.Statement (.sknp x) :=
  ⟨row_mem _, matches_op_nn rfl (by simp [encodeWord, WordMatchesRow.row]; omega)⟩

theorem WordMatchesRow.ldRegDt (x : Reg) : WordMatchesRow.Statement (.ldRegDt x) :=
  ⟨row_mem _, matches_op_nn rfl (by simp [encodeWord, WordMatchesRow.row]; omega)⟩

theorem WordMatchesRow.ldRegKey (x : Reg) : WordMatchesRow.Statement (.ldRegKey x) :=
  ⟨row_mem _, matches_op_nn rfl (by simp [encodeWord, WordMatchesRow.row]; omega)⟩

theorem WordMatchesRow.ldDtReg (x : Reg) : WordMatchesRow.Statement (.ldDtReg x) :=
  ⟨row_mem _, matches_op_nn rfl (by simp [encodeWord, WordMatchesRow.row]; omega)⟩

theorem WordMatchesRow.ldStReg (x : Reg) : WordMatchesRow.Statement (.ldStReg x) :=
  ⟨row_mem _, matches_op_nn rfl (by simp [encodeWord, WordMatchesRow.row]; omega)⟩

theorem WordMatchesRow.addI (x : Reg) : WordMatchesRow.Statement (.addI x) :=
  ⟨row_mem _, matches_op_nn rfl (by simp [encodeWord, WordMatchesRow.row]; omega)⟩

theorem WordMatchesRow.ldFont (x : Reg) : WordMatchesRow.Statement (.ldFont x) :=
  ⟨row_mem _, matches_op_nn rfl (by simp [encodeWord, WordMatchesRow.row]; omega)⟩

theorem WordMatchesRow.bcd (x : Reg) : WordMatchesRow.Statement (.bcd x) :=
  ⟨row_mem _, matches_op_nn rfl (by simp [encodeWord, WordMatchesRow.row]; omega)⟩

theorem WordMatchesRow.storeRegs (x : Reg) : WordMatchesRow.Statement (.storeRegs x) :=
  ⟨row_mem _, matches_op_nn rfl (by simp [encodeWord, WordMatchesRow.row]; omega)⟩

theorem WordMatchesRow.loadRegs (x : Reg) : WordMatchesRow.Statement (.loadRegs x) :=
  ⟨row_mem _, matches_op_nn rfl (by simp [encodeWord, WordMatchesRow.row]; omega)⟩

end Sys2Proof.Laws
end

