-- ==== Sys2Proof/Laws/Run.lean ====
section
/-! SUPPORT. What a STEP can do, said once, and running several STEPs. -/

namespace Sys2Proof.Machine

/-- All that a completed STEP is: no fault was set, the fetch was in bounds, and the decoded instruction's meaning
answered the next state. -/
theorem step_next {s t : State} (h : step s = .next t) :
    s.fault = none ∧ s.pc.toNat ≤ 4094 ∧
      ∃ i, decodeWord (joinBytes (s.mem.read s.pc.toNat) (s.mem.read (s.pc.toNat + 1))) = some i ∧
        exec i s.advancePc = .next t := by
  unfold step at h
  split at h
  · cases h
  · next hf =>
    by_cases hp : s.pc.toNat ≤ 4094
    · rw [fetchWord_ok hp] at h
      dsimp only at h
      split at h
      · cases h
      · next i hd => exact ⟨hf, hp, i, hd, h⟩
    · rw [fetchWord_fault (by omega)] at h
      cases h

/-- A run whose first STEP completes goes on from the next state. -/
theorem run_next {s t : State} (h : step s = .next t) (n : Nat) :
    Host.Core.run Sys2Proof.core (n + 1) s = Host.Core.run Sys2Proof.core n t := by
  have h' : Sys2Proof.core.step s = .next t := h
  simp only [Host.Core.run, h']

/-- A run whose first STEP faults stops with that fault. -/
theorem run_fault {s : State} {r : Fault} (h : step s = .fault r) (n : Nat) :
    Host.Core.run Sys2Proof.core (n + 1) s = .fault r := by
  have h' : Sys2Proof.core.step s = .fault r := h
  simp only [Host.Core.run, h']

end Sys2Proof.Machine
end

