-- ==== Sys2Proof/Tests/Slice0.lean ====
section
/-! SUPPORT. Tests, and a witness for the hypotheses of each statement. The expected results are the rows of
spec/95_test_vectors.md (V1 to V11, S1 to S8), never the model's own answers. -/

namespace Sys2Proof.Tests

open Sys2Proof.Machine

/-! ### Well-formedness
`Instr.wellFormed` has no ill-formed term to refuse: the operands fit their fields by type (log 25). The check
that can refuse is the one on a program image. -/

theorem test_image_of_3584_bytes_fits : imageFits (List.replicate 3584 0xAB) = true :=
  decide_eq_true (by rw [List.length_replicate])
theorem test_image_of_3585_bytes_refused : imageFits (List.replicate 3585 0xAB) = false :=
  decide_eq_false (by rw [List.length_replicate]; decide)
theorem test_empty_image_fits : imageFits [] = true := by decide
theorem test_wellFormed_highest_operands :
    (Instr.drw 15 15 15).wellFormed = true ∧ (Instr.jp 0xFFF).wellFormed = true := by decide

/-! ### Decoding: words written out from R302 and R340 (the vectors V1 to V9 of the spec) -/

theorem test_decode_control :
    decodeWord 0b0000000000000000 = some .nop ∧ decodeWord 0b0000000011101110 = some .ret ∧
    decodeWord 0x1FFF = some (.jp 0xFFF) ∧ decodeWord 0x2300 = some (.call 0x300) ∧
    decodeWord 0b0011001101000010 = some (.seImm 3 0x42) ∧ decodeWord 0x4342 = some (.sneImm 3 0x42) ∧
    decodeWord 0x5120 = some (.seReg 1 2) ∧ decodeWord 0x9120 = some (.sneReg 1 2) ∧
    decodeWord 0xB300 = some (.jpV0 0x300) := by decide

theorem test_decode_registers :
    decodeWord 0b0110111110101011 = some (.ldImm 15 0xAB) ∧ decodeWord 0x70FA = some (.addImm 0 0xFA) ∧
    decodeWord 0x8120 = some (.ldReg 1 2) ∧ decodeWord 0x8121 = some (.orReg 1 2) ∧
    decodeWord 0x8122 = some (.andReg 1 2) ∧ decodeWord 0x8123 = some (.xorReg 1 2) ∧
    decodeWord 0xC30F = some (.rnd 3 0x0F) := by decide

theorem test_decode_arithmetic :
    decodeWord 0b1000000100100100 = some (.addReg 1 2) ∧ decodeWord 0x8F05 = some (.subReg 15 0) ∧
    decodeWord 0x8126 = some (.shr 1 2) ∧ decodeWord 0x8127 = some (.subnReg 1 2) ∧
    decodeWord 0b1000000100101110 = some (.shl 1 2) := by decide

theorem test_decode_memory :
    decodeWord 0b1010001011110000 = some (.ldI 0x2F0) ∧ decodeWord 0xF21E = some (.addI 2) ∧
    decodeWord 0xF129 = some (.ldFont 1) ∧ decodeWord 0b1111010000110011 = some (.bcd 4) ∧
    decodeWord 0xF255 = some (.storeRegs 2) ∧ decodeWord 0xF165 = some (.loadRegs 1) := by decide

theorem test_decode_screen :
    decodeWord 0b0000000011100000 = some .cls ∧ decodeWord 0b1101001000111111 = some (.drw 2 3 15) := by decide

theorem test_decode_keys_and_timers :
    decodeWord 0b1110000110011110 = some (.skp 1) ∧ decodeWord 0xE1A1 = some (.sknp 1) ∧
    decodeWord 0xF307 = some (.ldRegDt 3) ∧ decodeWord 0xF50A = some (.ldRegKey 5) ∧
    decodeWord 0xF215 = some (.ldDtReg 2) ∧ decodeWord 0xF218 = some (.ldStReg 2) := by decide

theorem test_decode_illegal :
    [0x0123, 0x00E1, 0x5121, 0x8008, 0x800F, 0x9121, 0xE0FF, 0xF000, 0xF030, 0xF0FE, 0xFFFF].all
      (fun w => (decodeWord (BitVec.ofNat 16 w)).isNone) = true := by decide

theorem test_decode_bytes_big_endian :
    decodeBytes [0x12, 0x34, 0xFF] = .ok (.jp 0x234, [0xFF]) := by decide
theorem test_decode_bytes_rejects :
    decodeBytes [0x12] = .error .truncated ∧ decodeBytes [0x51, 0x21] = .error (.unknownOpcode 0x5121) := by decide
theorem test_encode_bytes : encode (.drw 2 3 2) = [0xD2, 0x32] ∧ encode .ret = [0x00, 0xEE] := by decide
theorem test_decodeTableWord :
    decodeTableWord 16 0x8124 = some (.addReg 1 2) ∧ decodeTableWord 16 0x5121 = none := by decide

/-! ### States for the tests -/

/-- The reset state with some registers set. -/
def withRegs (rs : List (Reg × Byte)) (s : State := State.reset) : State :=
  rs.foldl (fun s r => s.setReg r.1 r.2) s

/-- A state with some bytes stored. -/
def withBytes (a : Nat) (bs : List Byte) (s : State := State.reset) : State := s.setMem (s.mem.writeAll a bs)

/-- A state with some keys pressed. -/
def withKeys (ks : List (Fin 16)) (s : State := State.reset) : State := ks.foldl (fun s k => s.setKey k true) s

/-- A state with some stack entries in use. -/
def withStack (sp : Fin 17) (vs : Vector Word 16) : State := { State.reset with stack := vs, sp := sp }

/-- What one STEP of an instruction word at 0x200 gives, read by `f`. -/
def after {α : Type} (w : Nat) (s : State) (f : State → α) : Option α :=
  match step (s.withFetchWord 16 w) with
  | .next t => some (f t)
  | _ => none

/-- The fault of one STEP of an instruction word at 0x200. -/
def faultOf (w : Nat) (s : State) : Option Fault :=
  match step (s.withFetchWord 16 w) with
  | .fault r => some r
  | _ => none

/-! ### Fetch and decode in a STEP (V1) -/

theorem test_fetch_big_endian : after 0x1234 State.reset (·.pc) = some 0x234 := by decide
theorem test_fetch_odd_pc :
    after 0x6107 (State.reset.setPc 0x201) (fun t => (t.reg 1, t.pc)) = some (7, 0x203) := by decide
theorem test_fetch_last_word : after 0x0000 (State.reset.setPc 4094) (·.pc) = some 4096 := by decide
theorem test_fetch_past_end : step (State.reset.setPc 4095) = .fault (.fetchOutOfBounds 4095) := by rfl
theorem test_unknown_word : faultOf 0x5121 State.reset = some (.unknownOpcode 0x5121) := by decide
theorem test_unloaded_memory_is_nop : (match step State.reset with | .next t => some t.pc | _ => none) = some 0x202 := by
  decide

/-! ### Control flow (V2) -/

theorem test_nop : after 0x0000 (withRegs [(3, 7)]) (fun t => (t.pc, t.reg 3, t.I)) = some (0x202, 7, 0) := by decide
theorem test_jp_odd : after 0x1201 State.reset (·.pc) = some 0x201 := by decide
theorem test_call : after 0x2300 State.reset (fun t => (t.stack[0], t.sp, t.pc)) = some (0x202, 1, 0x300) := by decide
theorem test_call_sixteenth_and_overflow :
    after 0x2300 (withStack 15 (Vector.replicate 16 9)) (fun t => (t.stack[15], t.stack[14], t.sp, t.pc)) =
      some (0x202, 9, 16, 0x300) ∧
    faultOf 0x2300 (withStack 16 (Vector.replicate 16 9)) = some (.stackOverflow 0x200) := by decide
theorem test_ret :
    after 0x00EE (withStack 1 (Vector.replicate 16 0x204)) (fun t => (t.sp, t.pc, t.stack[0])) =
      some (0, 0x204, 0x204) := by decide
theorem test_ret_underflow : faultOf 0x00EE State.reset = some (.stackUnderflow 0x200) := by decide
theorem test_seImm :
    after 0x3342 (withRegs [(3, 0x42)]) (·.pc) = some 0x204 ∧ after 0x3342 (withRegs [(3, 0x41)]) (·.pc) = some 0x202 := by
  decide
theorem test_seImm_vf : after 0x3F01 (withRegs [(15, 1)]) (·.pc) = some 0x204 := by decide
theorem test_sneImm :
    after 0x4342 (withRegs [(3, 0x41)]) (·.pc) = some 0x204 ∧ after 0x4342 (withRegs [(3, 0x42)]) (·.pc) = some 0x202 := by
  decide
theorem test_seReg :
    after 0x5120 (withRegs [(1, 7), (2, 7)]) (·.pc) = some 0x204 ∧
    after 0x5120 (withRegs [(1, 7), (2, 8)]) (·.pc) = some 0x202 := by decide
theorem test_sneReg :
    after 0x9120 (withRegs [(1, 7), (2, 8)]) (·.pc) = some 0x204 ∧
    after 0x9120 (withRegs [(1, 7), (2, 7)]) (·.pc) = some 0x202 := by decide
theorem test_jpV0 : after 0xB300 (withRegs [(0, 0x10), (3, 0x99)]) (·.pc) = some 0x310 := by decide
theorem test_jpV0_highest : after 0xBFFF (withRegs [(0, 0xFF)]) (·.pc) = some 0x10FE := by decide

/-! ### Registers and arithmetic (V3, V4, V5) -/

theorem test_ldImm : after 0x6FAB State.reset (·.reg 15) = some 0xAB := by decide
theorem test_addImm_wraps_without_flag :
    after 0x7001 (withRegs [(0, 255), (15, 7)]) (fun t => (t.reg 0, t.reg 15)) = some (0, 7) := by decide
theorem test_addImm_vf : after 0x7F01 (withRegs [(15, 0xFF)]) (·.reg 15) = some 0 := by decide
theorem test_ldReg : after 0x8120 (withRegs [(2, 9)]) (fun t => (t.reg 1, t.reg 2)) = some (9, 9) := by decide
theorem test_or :
    after 0x8121 (withRegs [(1, 0x0F), (2, 0xF0), (15, 1)]) (fun t => (t.reg 1, t.reg 15)) = some (0xFF, 1) := by decide
theorem test_or_vf : after 0x8F01 (withRegs [(15, 0x10), (0, 0x01)]) (·.reg 15) = some 0x11 := by decide
theorem test_and :
    after 0x8122 (withRegs [(1, 0x3C), (2, 0x0F), (15, 1)]) (fun t => (t.reg 1, t.reg 15)) = some (0x0C, 1) := by decide
theorem test_xor :
    after 0x8123 (withRegs [(1, 0xFF), (2, 0x0F), (15, 1)]) (fun t => (t.reg 1, t.reg 15)) = some (0xF0, 1) := by decide
theorem test_add :
    after 0x8124 (withRegs [(1, 200), (2, 100)]) (fun t => (t.reg 1, t.reg 15)) = some (44, 1) ∧
    after 0x8124 (withRegs [(1, 127), (2, 128), (15, 9)]) (fun t => (t.reg 1, t.reg 15)) = some (255, 0) := by decide
theorem test_add_vf :
    after 0x8F14 (withRegs [(15, 200), (1, 100)]) (·.reg 15) = some 1 ∧
    after 0x80F4 (withRegs [(0, 1), (15, 1)]) (fun t => (t.reg 0, t.reg 15)) = some (2, 0) := by decide
theorem test_sub :
    after 0x8125 (withRegs [(1, 5), (2, 10)]) (fun t => (t.reg 1, t.reg 15)) = some (251, 0) ∧
    after 0x8125 (withRegs [(1, 7), (2, 7)]) (fun t => (t.reg 1, t.reg 15)) = some (0, 1) := by decide
theorem test_sub_vf :
    after 0x8F05 (withRegs [(15, 5), (0, 10)]) (·.reg 15) = some 0 ∧
    after 0x8F05 (withRegs [(15, 10), (0, 5)]) (·.reg 15) = some 1 := by decide
theorem test_shr :
    after 0x8126 (withRegs [(1, 0x05), (2, 0xFF)]) (fun t => (t.reg 1, t.reg 15)) = some (0x02, 1) ∧
    after 0x8106 (withRegs [(1, 0xFE)]) (fun t => (t.reg 1, t.reg 15)) = some (0x7F, 0) := by decide
theorem test_shr_vf :
    after 0x8FF6 (withRegs [(15, 0x05)]) (·.reg 15) = some 1 ∧ after 0x8FF6 (withRegs [(15, 0x04)]) (·.reg 15) = some 0 := by
  decide
theorem test_subn :
    after 0x8127 (withRegs [(1, 5), (2, 10)]) (fun t => (t.reg 1, t.reg 15)) = some (5, 1) ∧
    after 0x8127 (withRegs [(1, 1), (2, 0)]) (fun t => (t.reg 1, t.reg 15)) = some (255, 0) := by decide
theorem test_subn_vf : after 0x8F07 (withRegs [(15, 5), (0, 10)]) (·.reg 15) = some 1 := by decide
theorem test_shl :
    after 0x812E (withRegs [(1, 0x81)]) (fun t => (t.reg 1, t.reg 15)) = some (0x02, 1) ∧
    after 0x810E (withRegs [(1, 0x7F)]) (fun t => (t.reg 1, t.reg 15)) = some (0xFE, 0) := by decide
theorem test_shl_vf :
    after 0x8FFE (withRegs [(15, 0x81)]) (·.reg 15) = some 1 ∧ after 0x8FFE (withRegs [(15, 0x40)]) (·.reg 15) = some 0 := by
  decide
/-- Whatever byte is drawn, the result is that byte AND NN. -/
theorem test_rnd : after 0xC30F State.reset (·.reg 3) = some (Config.randomByte 0 &&& 0x0F) := by rfl
theorem test_rnd_mask_zero : after 0xC300 (withRegs [(3, 9)]) (·.reg 3) = some 0 := by
  show some (Config.randomByte 0 &&& 0) = some 0
  simp

/-! ### The address register and memory (V6) -/

theorem test_ldI : after 0xA2F0 (State.reset.setI 0xFFFF) (·.I) = some 0x2F0 := by decide
theorem test_addI_wraps_without_flag :
    after 0xF01E (withRegs [(0, 1), (15, 7)] (State.reset.setI 0xFFFF)) (fun t => (t.I, t.reg 15)) = some (0, 7) := by
  decide
theorem test_addI_past_memory : after 0xF01E (withRegs [(0, 1)] (State.reset.setI 0x0FFF)) (·.I) = some 0x1000 := by decide
theorem test_ldFont :
    after 0xF129 (withRegs [(1, 0xA)]) (·.I) = some 50 ∧ after 0xF129 (withRegs [(1, 0xFF)]) (·.I) = some 1275 := by decide
theorem test_bcd :
    after 0xF433 (withRegs [(4, 128)] (State.reset.setI 0x300))
      (fun t => (t.mem.read 0x300, t.mem.read 0x301, t.mem.read 0x302, t.I)) = some (1, 2, 8, 0x300) := by decide
theorem test_bcd_bounds :
    after 0xF433 (withRegs [(4, 100)] (State.reset.setI 4093)) (fun t => (t.mem.read 4093, t.mem.read 4095)) =
      some (1, 0) ∧
    faultOf 0xF433 (withRegs [(4, 100)] (State.reset.setI 4094)) = some (.memOutOfBounds 4096) ∧
    faultOf 0xF433 (State.reset.setI 0xFFFF) = some (.memOutOfBounds 65535) := by decide
theorem test_storeRegs :
    after 0xF255 (withRegs [(0, 1), (1, 2), (2, 3), (3, 4)] (State.reset.setI 0x300))
      (fun t => (t.mem.read 0x300, t.mem.read 0x302, t.mem.read 0x303, t.I)) = some (1, 3, 0, 0x300) := by decide
theorem test_storeRegs_bounds :
    after 0xF555 (withRegs [(5, 6)] (State.reset.setI 4090)) (fun t => t.mem.read 4095) = some 6 ∧
    faultOf 0xF655 (State.reset.setI 4090) = some (.memOutOfBounds 4096) := by decide
theorem test_loadRegs :
    after 0xF165 (withRegs [(2, 5)] (withBytes 0x300 [7, 9, 11] (State.reset.setI 0x300)))
      (fun t => (t.reg 0, t.reg 1, t.reg 2, t.I)) = some (7, 9, 5, 0x300) := by decide
theorem test_loadRegs_vf_and_bounds :
    after 0xFF65 (withBytes 0x30F [0xAA] (State.reset.setI 0x300)) (·.reg 15) = some 0xAA ∧
    faultOf 0xF065 (State.reset.setI 4096) = some (.memOutOfBounds 4096) := by decide
/-- A store into the font region takes effect (R202). -/
theorem test_font_is_writable :
    after 0xF055 (withRegs [(0, 0x55)]) (fun t => t.mem.read 0) = some 0x55 :=
  congrArg some (Memory.read_write (m := (State.reset.withFetchWord 16 0xF055).mem) (by rfl) 0 0 0x55)

/-! ### The screen (V7, S4) -/

theorem test_cls :
    after 0x00E0 (withRegs [(15, 1)] (State.reset.setScreen (Screen.toggle Screen.clear 2047)))
      (fun t => (t.fb, t.reg 15)) = some (Screen.clear, 1) := by decide
theorem test_drw_wraps_by_column :
    after 0xD011 (withRegs [(0, 63)] (withBytes 0x300 [0xC0] (State.reset.setI 0x300)))
      (fun t => (t.cell 63 0, t.cell 0 0, t.cell 62 0, t.cell 1 0, t.reg 15)) = some (true, true, false, false, 0) := by decide
theorem test_drw_wraps_by_row_and_collides :
    after 0xD012 (withRegs [(1, 31), (15, 9)] (withBytes 0x300 [0x80, 0xC0] ((State.reset.setI 0x300).setScreen (Screen.toggle Screen.clear 0))))
      (fun t => (t.cell 0 31, t.cell 0 0, t.cell 1 0, t.reg 15)) = some (true, false, true, 1) := by decide
theorem test_drw_vf_as_coordinate :
    after 0xDF01 (withRegs [(15, 10)] (withBytes 0x300 [0x80] (State.reset.setI 0x300)))
      (fun t => (t.cell 10 0, t.reg 15)) = some (true, 0) := by decide
theorem test_drw_no_rows :
    after 0xD010 (withRegs [(15, 1)] (State.reset.setI 0xFFFF)) (fun t => (t.fb, t.reg 15)) = some (Screen.clear, 0) := by decide
theorem test_drw_bounds :
    faultOf 0xD012 (State.reset.setI 4095) = some (.memOutOfBounds 4096) ∧
    faultOf 0xD011 (State.reset.setI 0xFFFF) = some (.memOutOfBounds 65535) := by decide

/-! ### Keyboard and timers (V8, V9) -/

theorem test_skp :
    after 0xE19E (withKeys [4] (withRegs [(1, 4)])) (·.pc) = some 0x204 ∧
    after 0xE19E (withKeys [5] (withRegs [(1, 4)])) (·.pc) = some 0x202 := by decide
theorem test_skp_out_of_range : faultOf 0xE19E (withRegs [(1, 16)]) = some (.keyIndexOutOfRange 16) := by decide
theorem test_sknp :
    after 0xE1A1 (withRegs [(1, 4)]) (·.pc) = some 0x204 ∧
    after 0xE1A1 (withKeys [4] (withRegs [(1, 4)])) (·.pc) = some 0x202 := by decide
theorem test_sknp_out_of_range : faultOf 0xE1A1 (withRegs [(1, 0xFF)]) = some (.keyIndexOutOfRange 255) := by decide
theorem test_ldRegKey_lowest :
    after 0xF50A (withKeys [9, 3] State.reset) (fun t => (t.reg 5, t.pc)) = some (3, 0x202) := by decide
theorem test_ldRegKey_none :
    after 0xF50A (withRegs [(5, 0x77)]) (fun t => (t.reg 5, t.pc)) = some (0x77, 0x200) := by decide
theorem test_ldRegDt :
    after 0xF307 (State.reset.setDt 0x3C) (fun t => (t.reg 3, t.dt)) = some (0x3C, 0x3C) := by decide
theorem test_ldDtReg : after 0xF215 (withRegs [(2, 60)]) (fun t => (t.dt, t.st)) = some (60, 0) := by decide
theorem test_ldStReg : after 0xF218 (withRegs [(2, 10)]) (fun t => (t.st, t.dt)) = some (10, 0) := by decide

/-! ### Commands (V10, V11, S7) -/

theorem test_tick :
    (fun t : State => (t.dt, t.st, t.soundEdge)) (command .tick ((State.reset.setDt 2).setSt 1)).1 = (1, 0, true) ∧
    (fun t : State => (t.dt, t.st, t.soundEdge)) (command .tick (State.reset.setSt 2)).1 = (0, 1, false) := by decide
theorem test_set_key :
    (command (.setKey 5 true) State.reset).1.key[5] = true ∧
    (command (.setKey 5 false) (withKeys [5])).1.key[5] = false := by decide
theorem test_load :
    (fun t : State => (t.mem.read 0x200, t.pc, t.reg 0)) (command (.load [0xAB]) (withRegs [(0, 7)] (State.reset.setPc 0x300))).1 =
      (0xAB, 0x300, 7) := by decide
theorem test_load_too_large :
    command (.load (List.replicate 3585 0xAB)) State.reset = (State.reset, .loadTooLarge) := by
  simp only [command, test_image_of_3585_bytes_refused]
  rfl
theorem test_read_display :
    let s := State.reset.setScreen (Screen.toggle Screen.clear 64)
    (command .readDisplay s).1 = s ∧ s.readDisplay[64] = true ∧ s.readDisplay[63] = false ∧ s.cell 0 1 = true := by
  simp [State.readDisplay, State.cell, cell_toggle, command]
theorem test_fault_then_step :
    let s := State.reset.setPc 4095
    (command .step s).1.faultStatus = (1, 4095) ∧
    (runCommands [.step, .step, .tick] s).faultStatus = (1, 4095) ∧
    (runCommands [.step, .reset] s).faultStatus = (0, 0) := by
  refine ⟨rfl, rfl, rfl⟩
theorem test_reset_clears :
    (command .reset (withKeys [5] { State.reset with soundEdge := true, fault := some (.stackOverflow 0x200) })).1 =
      State.reset := by decide


/-! ### A witness for the hypotheses of each statement, clause by clause at the boundaries of its range -/

theorem witness_EncodeOfDecode : decodeWord 0x8AB6 = some (.shr 10 11) := by decide

theorem witness_DecodeIffExactlyOneRowMatches :
    (⟨0xF00F, 0x8004⟩ : OpcodeRow) ∈ opcodeRows ∧ (⟨0xF00F, 0x8004⟩ : OpcodeRow).matchesWord 0x8124 = true := by decide

/-- The last word that can be fetched. -/
theorem witness_StepRunsDecodedInstruction :
    let s := State.reset.setPc 4094
    s.fault = none ∧ s.pc.toNat ≤ 4094 ∧
    decodeWord (BitVec.ofNat 16 ((s.mem.read s.pc.toNat).toNat * 256 + (s.mem.read (s.pc.toNat + 1)).toNat)) =
      some .nop := by decide

theorem witness_FetchPastTheEndFaults :
    let s := State.reset.setPc 4095
    s.fault = none ∧ 4094 < s.pc.toNat := by decide

theorem witness_UnknownWordFaults :
    let s := withBytes 4094 [0x51, 0x21] (State.reset.setPc 4094)
    let w : Word := 0x5121
    s.fault = none ∧ s.pc.toNat ≤ 4094 ∧
    w.toNat = (s.mem.read s.pc.toNat).toNat * 256 + (s.mem.read (s.pc.toNat + 1)).toNat ∧ decodeWord w = none := by
  decide

theorem witness_PlacedInstructionRuns :
    State.reset.mem.wf = true ∧ (State.reset.setPc 4094).pc.toNat ≤ 4094 ∧ 4094 < (State.reset.setPc 4095).pc.toNat := by
  decide

/-- One state for each of the four kinds of fault that an instruction raises. -/
theorem witness_FaultsOfInstructions :
    let s := State.reset.setPc 0x202
    let p : Word := 0x200
    s.pc = p + 2 ∧
    exec (.call 0x300) { s with sp := 16 } = .fault (.stackOverflow 0x200) ∧
    exec .ret s = .fault (.stackUnderflow 0x200) ∧
    exec (.bcd 4) (s.setI 4094) = .fault (.memOutOfBounds 4096) ∧
    exec (.storeRegs 6) (s.setI 4090) = .fault (.memOutOfBounds 4096) ∧
    exec (.loadRegs 0) (s.setI 0xFFFF) = .fault (.memOutOfBounds 65535) ∧
    exec (.drw 0 1 2) (s.setI 4095) = .fault (.memOutOfBounds 4096) ∧
    exec (.skp 1) (s.setReg 1 16) = .fault (.keyIndexOutOfRange 16) ∧
    exec (.sknp 1) (s.setReg 1 255) = .fault (.keyIndexOutOfRange 255) :=
  ⟨rfl, rfl, rfl, rfl, rfl, rfl, rfl, rfl, rfl⟩

theorem witness_CallResult :
    let s := State.reset.setPc 0x202
    let p : Word := 0x200
    s.pc = p + 2 ∧ { s with sp := 16 }.sp.val = 16 ∧
    s.sp.val = (0 : Fin 16).val ∧ { s with sp := 15 }.sp.val = (15 : Fin 16).val := by decide

theorem witness_ReturnResult :
    let s := State.reset.setPc 0x302
    let p : Word := 0x300
    s.pc = p + 2 ∧ s.sp.val = 0 ∧ { s with sp := 1 }.sp.val = (0 : Fin 16).val + 1 ∧
    { s with sp := 16 }.sp.val = (15 : Fin 16).val + 1 := by decide

/-- The sixteenth nested call, with the callee's registers changed before the return. -/
theorem witness_ReturnUndoesCall :
    let s := withStack 15 (Vector.replicate 16 0x204)
    ∃ t, exec (.call 0x300) s = .next t ∧ (t.setReg 3 7).stack = t.stack ∧ (t.setReg 3 7).sp = t.sp ∧ t.sp = 16 :=
  ⟨_, rfl, rfl, rfl, rfl⟩

theorem witness_CompareSkipResult :
    let s := withRegs [(3, 0x42), (4, 0x41)] (State.reset.setPc 0x202)
    let p : Word := 0x200
    s.pc = p + 2 ∧ (s.reg 3).toNat = (0x42 : Byte).toNat ∧ (s.reg 4).toNat ≠ (0x42 : Byte).toNat := by decide

/-- X = 15 is one of the forms, and so is any other X. -/
theorem witness_flag_writers : (14 : Reg) ≠ 15 ∧ (0 : Reg) ≠ 15 := by decide

theorem witness_RandomResult : (0 : Byte) = 0 := by decide

theorem witness_BcdResult :
    (State.reset.setI 4093).mem.wf = true ∧ (State.reset.setI 4093).dataAddr + 3 ≤ 4096 ∧
    4096 < (State.reset.setI 4094).dataAddr + 3 ∧ 4096 < (State.reset.setI 0xFFFF).dataAddr + 3 := by decide

theorem witness_StoreRegistersResult :
    (State.reset.setI 4080).mem.wf = true ∧ (State.reset.setI 4080).dataAddr + ((15 : Reg).val + 1) ≤ 4096 ∧
    4096 < (State.reset.setI 4081).dataAddr + ((15 : Reg).val + 1) ∧
    4096 < (State.reset.setI 4096).dataAddr + ((0 : Reg).val + 1) := by decide

theorem witness_LoadRegistersResult :
    (State.reset.setI 4095).dataAddr + ((0 : Reg).val + 1) ≤ 4096 ∧
    4096 < (State.reset.setI 4096).dataAddr + ((0 : Reg).val + 1) ∧
    (14 : Reg).val < (15 : Reg).val := by decide

theorem witness_LoadUndoesStore :
    let s := withRegs [(0, 1), (1, 2)] (State.reset.setI 0x300)
    s.mem.wf = true ∧ ∃ t, exec (.storeRegs 1) s = .next t ∧ (withRegs [(0, 9), (1, 9)] t).mem = t.mem ∧
      (withRegs [(0, 9), (1, 9)] t).I = t.I :=
  ⟨rfl, _, rfl, rfl, rfl⟩

/-- The three clauses at the end of memory: a store over the whole last word, one over its second byte alone, the
last three bytes, and the largest image. -/
theorem witness_StoredBytesAreFetched :
    let s := (State.reset.setI 4094).setPc 4094
    s.mem.wf = true ∧ s.pc.toNat ≤ 4094 ∧ s.dataAddr + ((1 : Reg).val + 1) ≤ 4096 ∧
    (s.setI 4095).dataAddr + ((0 : Reg).val + 1) ≤ 4096 ∧ (s.setI 4093).dataAddr + 3 ≤ 4096 ∧
    (List.replicate 3584 (0xAB : Byte)).length ≤ 3584 :=
  ⟨rfl, by decide, by decide, by decide, by decide, by rw [List.length_replicate]⟩

theorem witness_DrawResult :
    let s := State.reset.setI 4081
    1 ≤ (1 : Nibble).toNat ∧ 1 ≤ (15 : Nibble).toNat ∧ s.dataAddr + (15 : Nibble).toNat ≤ 4096 ∧
    4096 < (State.reset.setI 4082).dataAddr + (15 : Nibble).toNat ∧
    4096 < (State.reset.setI 4096).dataAddr + (1 : Nibble).toNat := by decide

/-- The state of the spec's vector D011: one cell lit, a sprite of two 1 bits at 0x300. -/
def litCorner : State := withBytes 0x300 [0xC0] ((State.reset.setI 0x300).setScreen (Screen.toggle Screen.clear 0))

/-- Both cases of the collision clause: a covered cell that is on, and none with the sprite byte zero. -/
theorem witness_DrawResult_collision :
    (∃ cx cy, litCorner.cell cx cy = true ∧ litCorner.spriteCovers 0 1 1 cx cy) ∧
    ¬∃ cx cy, (State.reset.setI 0x300).cell cx cy = true ∧ (State.reset.setI 0x300).spriteCovers 0 1 1 cx cy := by
  refine ⟨⟨0, 0, by decide, 0, 0, by decide, by decide, by decide, by decide, by decide⟩, ?_⟩
  rintro ⟨cx, cy, h, _⟩
  simp [State.cell, State.reset, State.setI, Screen.cell] at h

/-- The first draw lights the cell (1, 0) and turns (0, 0) off; the second finds `pc` back at the instruction. -/
theorem witness_SecondDrawErases :
    (0 : Reg) ≠ 15 ∧ (1 : Reg) ≠ 15 ∧
    (∃ t, exec (.drw 0 1 1) litCorner = .next t ∧ (t.setPc 0x202) = { t with pc := (t.setPc 0x202).pc }) ∧
    ∃ cx cy, litCorner.cell cx cy = false ∧ litCorner.spriteCovers 0 1 1 cx cy := by
  refine ⟨by decide, by decide, ⟨_, rfl, rfl⟩, 1, 0, by decide, 0, 1, by decide, by decide, by decide, by decide, by decide⟩

theorem witness_KeySkipResult :
    let s := State.reset.setPc 0x202
    let p : Word := 0x200
    s.pc = p + 2 ∧ ((s.setReg 1 15).reg 1).toNat = (15 : Fin 16).val ∧ (s.reg 1).toNat = (0 : Fin 16).val ∧
    16 ≤ ((s.setReg 1 16).reg 1).toNat := by decide

theorem witness_WaitForKeyResult :
    let s := State.reset.setPc 0x202
    let p : Word := 0x200
    s.pc = p + 2 ∧ s.noKey ∧
    ((withKeys [15] s).key[(15 : Fin 16).val] = true ∧ ∀ j : Fin 16, j < 15 → (withKeys [15] s).key[j.val] = false) ∧
    ((withKeys [9, 3] s).key[(3 : Fin 16).val] = true ∧ ∀ j : Fin 16, j < 3 → (withKeys [9, 3] s).key[j.val] = false) := by
  refine ⟨by decide, ?_, by decide, by decide⟩
  show ∀ k : Fin 16, _
  decide

theorem witness_WaitingSpinsInPlace :
    let s := withBytes 0x200 [0xF5, 0x0A]
    s.fault = none ∧ s.pc.toNat ≤ 4094 ∧ s.noKey ∧
    decodeWord (BitVec.ofNat 16 ((s.mem.read s.pc.toNat).toNat * 256 + (s.mem.read (s.pc.toNat + 1)).toNat)) =
      some (.ldRegKey 5) := by
  refine ⟨rfl, by decide, ?_, by decide⟩
  show ∀ k : Fin 16, _
  decide

/-- From reset, with no program loaded: 1792 NOPs, up to the end of memory (P7). -/
theorem witness_ZeroMemoryRunsToTheEnd :
    State.reset.fault = none ∧ State.reset.pc.toNat + 2 * 1792 ≤ 4096 ∧ State.reset.pc.toNat + 2 * 1792 = 4096 ∧
    ∀ a, State.reset.pc.toNat ≤ a → State.reset.mem.read a = 0 := by
  refine ⟨rfl, by decide, by decide, fun a ha => ?_⟩
  have ha' : 0x200 ≤ a := ha
  exact dif_neg (show ¬a < 80 by omega)

theorem witness_OnlyListedRegistersWritten :
    (∃ t, exec (.addReg 1 2) (withRegs [(1, 200), (2, 100)]) = .next t) ∧
    (Instr.addReg 1 2).writesReg 2 = false ∧ (Instr.addReg 1 2).writesReg 15 = true :=
  ⟨⟨_, rfl⟩, by decide, by decide⟩

theorem witness_OnlyListedPartsWritten :
    ∃ t, exec (.storeRegs 1) (State.reset.setI 0x300) = .next t := ⟨_, rfl⟩

theorem witness_SoundTimerIsNotRead :
    exec .ret State.reset = .fault (.stackUnderflow 0x1FE) ∧
    (∃ t, exec (.ldRegDt 3) State.reset = .next t) ∧ ∀ x, Instr.ldRegDt 3 ≠ .ldStReg x :=
  ⟨rfl, ⟨_, rfl⟩, fun _ h => by cases h⟩

/-- One entry in use; the slots above it differ. -/
theorem witness_StaleSlotsAreNotRead :
    let s := withStack 1 (Vector.replicate 16 0x204)
    let s' := { s with stack := (Vector.replicate 16 0x999).set 0 0x204 }
    sameButStaleSlots s s' ∧ s.stack ≠ s'.stack ∧ ∃ t, exec .ret s = .next t := by
  refine ⟨⟨⟨_, rfl⟩, by decide⟩, by decide, _, rfl⟩

theorem witness_LoadCommand :
    State.reset.mem.wf = true ∧ 3584 < (List.replicate 3585 (0xAB : Byte)).length ∧
    (List.replicate 3584 (0xAB : Byte)).length ≤ 3584 :=
  ⟨rfl, by rw [List.length_replicate]; decide, by rw [List.length_replicate]⟩

theorem witness_ResetValues :
    let s := withRegs [(3, 7)]
    (State.reset = State.reset ∨ ∃ s, State.reset = (command .reset s).1) ∧
    ((command .reset s).1 = State.reset ∨ ∃ s', (command .reset s).1 = (command .reset s').1) :=
  ⟨.inl rfl, .inr ⟨_, rfl⟩⟩

theorem witness_FaultStopsTheMachine :
    ((State.reset.setPc 4095).fault = none ∧ step (State.reset.setPc 4095) = .fault (.fetchOutOfBounds 4095)) ∧
    { State.reset with fault := some (.unknownOpcode 0x5121) }.fault = some (.unknownOpcode 0x5121) ∧
    Command.reset ∉ [Command.step, .tick, .setKey 5 true, .load [0xAB], .readDisplay] :=
  ⟨⟨rfl, rfl⟩, rfl, by decide⟩

/-- A good state whose `pc` is at the last fetchable word, and its STEP. -/
theorem witness_StepKeepsInvariant :
    (State.reset.setPc 4094).Inv ∧ ∃ t, step (State.reset.setPc 4094) = .next t :=
  ⟨⟨rfl, by decide, fun _ hk => absurd hk (Nat.not_lt_zero _)⟩, _, rfl⟩

/-- Sound states with no fault and with one. -/
theorem witness_CommandsKeepSoundness :
    State.reset.Sound ∧ { State.reset with fault := some (.stackOverflow 0xFFFE) }.Sound :=
  ⟨⟨rfl, fun _ => ⟨rfl, by decide, fun _ hk => absurd hk (Nat.not_lt_zero _)⟩, fun _ h => by cases h⟩,
   ⟨rfl, (fun h => nomatch h), fun _ h => by cases h; decide⟩⟩

theorem witness_ProgramCounterNeverWraps :
    (State.reset.setPc 4094).Inv ∧ ∃ t, step (State.reset.setPc 4094) = .next t := witness_StepKeepsInvariant

/-- A plain advance at the last fetchable word, a return from the sixteenth entry, and a skip by the last key. -/
theorem witness_ProgramCounterAfterStep :
    let s := State.reset.setPc 4094
    let r := withBytes 0x200 [0x00, 0xEE] (withStack 16 (Vector.replicate 16 0x204))
    let k := withKeys [15] (withRegs [(1, 15)] (withBytes 0x200 [0xE1, 0x9E]))
    (fetchWord s = .ok (encodeWord .nop) ∧ ∃ t, step s = .next t) ∧
    (fetchWord r = .ok (encodeWord .ret) ∧ ∃ t, step r = .next t) ∧
    (fetchWord k = .ok (encodeWord (.skp 1)) ∧ ∃ t, step k = .next t) :=
  ⟨⟨rfl, _, rfl⟩, ⟨rfl, _, rfl⟩, ⟨rfl, _, rfl⟩⟩

end Sys2Proof.Tests
end

section
/-! PROOFS. The fetch of a STEP (spec/20_memory.md R204, R209; spec/30_encoding.md R320 to R323). -/

namespace Sys2Proof.Machine

/-- The fetch's fault is the answer of the STEP: nothing comes before it (R905). -/
theorem step_of_fetchWord_error {s : State} {r : Fault} (hf : s.fault = none) (hw : fetchWord s = .error r) :
    step s = .fault r := by
  simp only [step, hf, hw]

/-- Decode and execute follow a completed fetch (R323). -/
theorem step_of_fetchWord_ok {s : State} {w : Word} {i : Instr} (hf : s.fault = none)
    (hw : fetchWord s = .ok w) (hd : decodeWord w = some i) : step s = exec i s.advancePc := by
  simp only [step, hf, hw, hd]

/-- Settles O7: the fetch answers the big-endian word (`fetchWord_ok`), the STEP executes what it decodes to. -/
theorem stepRunsDecodedInstruction : Obligations.StepRunsDecodedInstruction := by
  intro s i hf hp hd
  exact step_of_fetchWord_ok hf (fetchWord_ok hp) hd

/-- Settles O8: the fetch past the end faults (`fetchWord_fault`), and the STEP answers that fault. -/
theorem fetchPastTheEndFaults : Obligations.FetchPastTheEndFaults := by
  intro s hf hp
  exact step_of_fetchWord_error hf (fetchWord_fault hp)

end Sys2Proof.Machine
end

section
/-! PROOFS. A decoded word is spelt by its own fields (spec/30_encoding.md R302, R304, R340). -/

namespace Sys2Proof

/-! ### The fields of a word spell it again, format by format (R302) -/

theorem encodeAddr_fields {w : Word} {op : Nat} (hop : fieldOp w = op) : encodeAddr op (fieldNNN w) = w := by
  rw [fieldOp_eq] at hop
  apply BitVec.eq_of_toNat_eq
  rw [encodeAddr_toNat _ _ (by omega), fieldNNN_toNat]
  omega

theorem encodeRegImm_fields {w : Word} {op : Nat} {nn : Byte} (hop : fieldOp w = op)
    (hnn : (fieldNN w).toNat = nn.toNat) : encodeRegImm op (fieldX w) nn = w := by
  rw [fieldOp_eq] at hop
  apply BitVec.eq_of_toNat_eq
  rw [encodeRegImm_toNat _ _ _ (by omega), ← hnn, fieldX_val, fieldNN_toNat]
  omega

theorem encodeRegReg_fields {w : Word} {op f : Nat} (hop : fieldOp w = op) (hf : (fieldN w).toNat = f) :
    encodeRegReg op (fieldX w) (fieldY w) f = w := by
  rw [fieldOp_eq] at hop
  rw [fieldN_toNat] at hf
  apply BitVec.eq_of_toNat_eq
  rw [encodeRegReg_toNat _ _ _ _ (by omega) (by omega), fieldX_val, fieldY_val]
  omega

/-! ### The decoders of the first nibbles 0, 8, E and F (R340) -/

theorem encodeWord_of_decodeZero {w : Word} {i : Instr} (h : decodeZero w = some i) : encodeWord i = w := by
  unfold decodeZero at h
  split at h <;> cases h <;> exact (BitVec.eq_of_toNat_eq ‹_›).symm

/-- The last nibble told the instructions apart; `Y` is spelt for the shifts too (R304). -/
theorem encodeWord_of_decodeEight {w : Word} {i : Instr} (hop : fieldOp w = 0x8) (h : decodeEight w = some i) :
    encodeWord i = w := by
  unfold decodeEight at h
  split at h <;> cases h <;> exact encodeRegReg_fields hop ‹_›

theorem encodeWord_of_decodeE {w : Word} {i : Instr} (hop : fieldOp w = 0xE) (h : decodeE w = some i) :
    encodeWord i = w := by
  unfold decodeE at h
  split at h <;> cases h <;> exact encodeRegImm_fields hop ‹_›

theorem encodeWord_of_decodeF {w : Word} {i : Instr} (hop : fieldOp w = 0xF) (h : decodeF w = some i) :
    encodeWord i = w := by
  unfold decodeF at h
  split at h <;> cases h <;> exact encodeRegImm_fields hop ‹_›

/-- Settles O2, along the decoder's match on the first nibble (`h_1` is nibble 0, `h_16` nibble F): each case names
the sub-decoder or the format that spells the word. -/
theorem encodeOfDecode : Obligations.EncodeOfDecode := by
  intro w i h
  unfold decodeWord at h
  split at h
  case h_1 => exact encodeWord_of_decodeZero h
  case h_9 hop => exact encodeWord_of_decodeEight hop h
  case h_15 hop => exact encodeWord_of_decodeE hop h
  case h_16 hop => exact encodeWord_of_decodeF hop h
  case h_2 hop | h_3 hop | h_11 hop | h_12 hop =>
    cases h
    exact encodeAddr_fields hop
  case h_4 hop | h_5 hop | h_7 hop | h_8 hop | h_13 hop =>
    cases h
    exact encodeRegImm_fields hop rfl
  case h_14 hop =>
    cases h
    exact encodeRegReg_fields hop rfl
  case h_6 hop | h_10 hop =>
    obtain ⟨hn, ⟨⟩⟩ := Option.ite_none_right_eq_some.1 h
    exact encodeRegReg_fields hop (congrArg BitVec.toNat hn)
  case h_17 => cases h

end Sys2Proof
end

section
/-! PROOFS. Laws of frames (spec/10_state.md R100): what `onlyChanges` says of the updates that move `pc` or the
return stack, and how frames compose. -/

namespace Sys2Proof.Machine

theorem Part.same_refl (p : Part) (s : State) : p.same s s := by
  cases p <;> simp [Part.same]

theorem Part.same_trans {p : Part} {s t u : State} (hst : p.same s t) (htu : p.same t u) : p.same s u := by
  cases p
  case mem => exact fun a => (htu a).trans (hst a)
  case regs => exact fun r => (htu r).trans (hst r)
  case stack => exact ⟨htu.1.trans hst.1, htu.2.trans hst.2⟩
  all_goals exact Eq.trans htu hst

theorem onlyChanges_refl (parts : List Part) (s : State) : onlyChanges parts s s :=
  fun p _ => p.same_refl s

theorem onlyChanges_trans {parts : List Part} {s t u : State} (hst : onlyChanges parts s t)
    (htu : onlyChanges parts t u) : onlyChanges parts s u :=
  fun p hp => Part.same_trans (hst p hp) (htu p hp)

theorem onlyChanges_setPc {parts : List Part} (h : .pc ∈ parts) (s : State) (v : Word) :
    onlyChanges parts s (s.setPc v) := by
  intro p hp
  cases p
  case pc => exact absurd h hp
  all_goals simp [Part.same]

theorem onlyChanges_stack {parts : List Part} (h : .stack ∈ parts) (s : State) (slots : Vector Word 16)
    (n : Fin 17) : onlyChanges parts s { s with stack := slots, sp := n } := by
  intro p hp
  cases p
  case stack => exact absurd h hp
  all_goals simp [Part.same, State.reg]

/-- A skip moves `pc` or leaves the state as it is (R401). -/
theorem onlyChanges_skipIf (c : Bool) (s : State) : onlyChanges [.pc] s (s.skipIf c) := by
  cases c
  case false => exact onlyChanges_refl _ s
  case true => exact onlyChanges_setPc List.mem_cons_self s _

end Sys2Proof.Machine
end

section
/-! PROOFS. Control flow (spec/40_control_flow.md R400 to R480). -/

namespace Sys2Proof.Machine

/-! ### Where a jump goes (R303) -/

@[simp] theorem zext16_toNat (nnn : Addr12) : (zext16 nnn).toNat = nnn.toNat :=
  BitVec.toNat_setWidth_of_le (by decide)

@[simp] theorem byteToWord_toNat (b : Byte) : (byteToWord b).toNat = b.toNat :=
  BitVec.toNat_setWidth_of_le (by decide)

/-- A 12-bit address plus a byte fits 16 bits (R480). -/
theorem zext16_add_byteToWord_toNat (nnn : Addr12) (b : Byte) :
    (zext16 nnn + byteToWord b).toNat = nnn.toNat + b.toNat := by
  rw [BitVec.toNat_add, zext16_toNat, byteToWord_toNat]
  omega

/-- Settles O13: 0000 answers the state it is given. -/
theorem nopResult : Obligations.NopResult :=
  fun _ => rfl

/-- Settles O14: the next state is `setPc` of the widened address. -/
theorem jumpResult : Obligations.JumpResult :=
  fun nnn s => ⟨s.setPc (zext16 nnn), rfl, zext16_toNat nnn, onlyChanges_setPc List.mem_cons_self s _⟩

/-- Settles O15: the sum is exact by `zext16_add_byteToWord_toNat`. -/
theorem jumpRelativeResult : Obligations.JumpRelativeResult :=
  fun nnn s => ⟨s.setPc (zext16 nnn + byteToWord (s.reg 0)), rfl, zext16_add_byteToWord_toNat nnn (s.reg 0),
    onlyChanges_setPc List.mem_cons_self s _⟩

/-! ### Call and return (R410, R430) -/

theorem exec_call_fault (nnn : Addr12) {s : State} (h : s.sp.val = 16) :
    exec (.call nnn) s = .fault (.stackOverflow s.instrAddr.toNat) := by
  simp only [exec, execCall, push_fault s s.pc h]

theorem exec_call_next (nnn : Addr12) {s : State} (h : s.sp.val < 16) :
    exec (.call nnn) s = .next (State.setPc
      { s with stack := s.stack.set s.sp.val s.pc, sp := ⟨s.sp.val + 1, by omega⟩ } (zext16 nnn)) := by
  simp only [exec, execCall, push_ok s s.pc h]

theorem exec_ret_fault {s : State} (h : s.sp.val = 0) :
    exec .ret s = .fault (.stackUnderflow s.instrAddr.toNat) := by
  simp only [exec, execRet, pop_fault s h]

theorem exec_ret_next {s : State} (h : 0 < s.sp.val) :
    exec .ret s = .next (State.setPc { s with sp := ⟨s.sp.val - 1, by omega⟩ }
      (s.stack[s.sp.val - 1]'(by omega))) := by
  simp only [exec, execRet, pop_ok s h]

/-- Settles O16: with a free slot, the advanced `pc` goes to slot `sp` alone and the rest is `setPc`. -/
theorem callResult : Obligations.CallResult := by
  intro nnn s p hp
  constructor
  · intro hfull
    rw [exec_call_fault nnn hfull, instrAddr_eq hp]
  · intro k hk
    refine ⟨_, exec_call_next nnn (by omega), ?pushed, ?pointer, ?target, ?others, ?frame⟩
    case pushed => simp [hk, hp]
    case pointer => simp [hk]
    case target => simp
    case others =>
      intro j hj
      exact Vector.getElem_set_ne (by omega) j.isLt fun h => hj (Fin.ext (by omega))
    case frame => exact onlyChanges_trans (onlyChanges_stack (by decide) s _ _) (onlyChanges_setPc (by decide) _ _)

/-- Settles O17: with an entry in use, `sp` goes down, `pc` is the top entry and the slots are those of before. -/
theorem returnResult : Obligations.ReturnResult := by
  intro s p hp
  constructor
  · intro hempty
    rw [exec_ret_fault hempty, instrAddr_eq hp]
  · intro k hk
    refine ⟨_, exec_ret_next (by omega), ?pointer, ?target, rfl, ?frame⟩
    case pointer => simp [hk]
    case target => simp [hk]
    case frame =>
      exact onlyChanges_trans (onlyChanges_stack (by decide) s s.stack _) (onlyChanges_setPc (by decide) _ _)

/-! ### Skips (R401, R440 to R470) -/

/-- Seen from the instruction's address, a skip goes on at the next word but one, else at the next. -/
theorem skipIf_pc_of_pc {s : State} {p : Word} (hp : s.pc = p + 2) (c : Bool) :
    (s.skipIf c).pc = if c then p + 4 else p + 2 := by
  rw [skipIf_pc, hp, BitVec.add_assoc]
  rfl

/-- The skips on equality, 3XNN and 5XY0. -/
theorem skipIf_beq_pc {s : State} {p : Word} (hp : s.pc = p + 2) (a b : Byte) :
    (s.skipIf (a == b)).pc = if a.toNat = b.toNat then p + 4 else p + 2 := by
  rw [skipIf_pc_of_pc hp]
  simp [BitVec.toNat_inj]

/-- The skips on difference, 4XNN and 9XY0. -/
theorem skipIf_bne_pc {s : State} {p : Word} (hp : s.pc = p + 2) (a b : Byte) :
    (s.skipIf (a != b)).pc = if a.toNat = b.toNat then p + 2 else p + 4 := by
  rw [skipIf_pc_of_pc hp]
  simp [BitVec.toNat_inj]

/-- Settles O19: each of the four is a `skipIf` on the equality or the difference of two bytes. -/
theorem compareSkipResult : Obligations.CompareSkipResult := by
  intro x y nn s p hp
  refine ⟨⟨_, rfl, ?seImm, onlyChanges_skipIf _ s⟩, ⟨_, rfl, ?sneImm, onlyChanges_skipIf _ s⟩,
    ⟨_, rfl, ?seReg, onlyChanges_skipIf _ s⟩, ⟨_, rfl, ?sneReg, onlyChanges_skipIf _ s⟩⟩
  case seImm => exact skipIf_beq_pc hp (s.reg x) nn
  case sneImm => exact skipIf_bne_pc hp (s.reg x) nn
  case seReg => exact skipIf_beq_pc hp (s.reg x) (s.reg y)
  case sneReg => exact skipIf_bne_pc hp (s.reg x) (s.reg y)

end Sys2Proof.Machine
end

section
/-! PROOFS. Laws of a register write (spec/10_state.md R102, R104): the destination reads back what was written, and
a frame that names it holds. -/

namespace Sys2Proof.Machine

theorem reg_setReg_same (s : State) (r : Reg) (v : Byte) : (s.setReg r v).reg r = v := by
  rw [reg_setReg, if_pos rfl]

theorem reg_setReg_ne (s : State) {r q : Reg} (h : q ≠ r) (v : Byte) : (s.setReg r v).reg q = s.reg q := by
  rw [reg_setReg, if_neg h]

theorem onlyRegs_setReg {rs : List Reg} {r : Reg} (h : r ∈ rs) (s : State) (v : Byte) :
    onlyRegs rs s (s.setReg r v) :=
  fun _ hq => reg_setReg_ne s (ne_of_mem_of_not_mem h hq).symm v

theorem onlyChanges_setReg {parts : List Part} (h : .regs ∈ parts) (s : State) (r : Reg) (v : Byte) :
    onlyChanges parts s (s.setReg r v) := by
  intro p hp
  cases p
  case regs => exact absurd h hp
  all_goals simp [Part.same]

end Sys2Proof.Machine
end

section
/-! PROOFS. Registers and arithmetic (spec/41_alu.md R500 to R535): the instructions that write no flag. Each answers
one `setReg` of VX, so the frames are those of `setReg` (R597) and only the value written is its own. -/

namespace Sys2Proof.Machine

/-- Settles O20: both forms are `setReg`, of the immediate and of VY. -/
theorem loadAndMoveResult : Obligations.LoadAndMoveResult := by
  intro x y nn s
  have frame (v : Byte) : onlyRegs [x] s (s.setReg x v) ∧ onlyChanges [.regs] s (s.setReg x v) :=
    ⟨onlyRegs_setReg List.mem_cons_self s v, onlyChanges_setReg List.mem_cons_self s x v⟩
  exact ⟨⟨_, rfl, reg_setReg_same s x nn, frame nn⟩, ⟨_, rfl, reg_setReg_same s x (s.reg y), frame (s.reg y)⟩⟩

/-- Settles O21: the value written is the byte sum, which wraps modulo 256 (R595). -/
theorem addImmediateResult : Obligations.AddImmediateResult := by
  intro x nn s
  refine ⟨_, rfl, ?sum, onlyRegs_setReg List.mem_cons_self s _, onlyChanges_setReg List.mem_cons_self s x _⟩
  case sum => rw [reg_setReg_same, BitVec.toNat_add]

/-- Settles O22: the value written is the bitwise combination of VX and VY as they were before the write (R15). -/
theorem bitwiseResult : Obligations.BitwiseResult := by
  intro x y s
  have onlyX (v : Byte) : onlyRegs [x] s (s.setReg x v) := onlyRegs_setReg List.mem_cons_self s v
  have frame (v : Byte) : onlyChanges [.regs] s (s.setReg x v) := onlyChanges_setReg List.mem_cons_self s x v
  refine ⟨⟨_, rfl, onlyX _, frame _, ?or⟩, ⟨_, rfl, onlyX _, frame _, ?and⟩, ⟨_, rfl, onlyX _, frame _, ?xor⟩⟩
  case or => exact fun k _ => by rw [reg_setReg_same, BitVec.getLsbD_or]
  case and => exact fun k _ => by rw [reg_setReg_same, BitVec.getLsbD_and]
  case xor => exact fun k _ => by rw [reg_setReg_same, BitVec.getLsbD_xor]

end Sys2Proof.Machine
end

section
/-! PROOFS. Laws of memory as a whole and of I: what a string of bytes written to memory leaves there
(spec/20_memory.md R207, R208), and the frames of `setMem` and `setI`. -/

namespace Sys2Proof.Machine

/-! ### A string of bytes in memory -/

/-- Byte `k` of the string is at `a + k`. -/
theorem read_writeAll_inside {m : Memory} (h : m.wf = true) {a : Nat} {bs : List Byte} (ha : a + bs.length ≤ 4096)
    {k : Nat} (hk : k < bs.length) : (m.writeAll a bs).read (a + k) = bs[k] := by
  rw [Memory.read_writeAll h ha, if_pos (Nat.le_add_right a k), Nat.add_sub_cancel_left,
    List.getElem?_eq_getElem hk, Option.getD_some]

theorem read_writeAll_outside {m : Memory} (h : m.wf = true) {a : Nat} {bs : List Byte} (ha : a + bs.length ≤ 4096)
    {b : Nat} (hb : ¬(a ≤ b ∧ b < a + bs.length)) : (m.writeAll a bs).read b = m.read b := by
  rw [Memory.read_writeAll h ha]
  split
  case isTrue hab => rw [List.getElem?_eq_none (by omega), Option.getD_none]
  case isFalse => rfl

/-! ### Frames -/

theorem onlyBytes_setMem_writeAll {s : State} (h : s.mem.wf = true) {a : Nat} {bs : List Byte}
    (ha : a + bs.length ≤ 4096) : onlyBytes a bs.length s (s.setMem (s.mem.writeAll a bs)) :=
  fun _ hb => read_writeAll_outside h ha hb

theorem onlyChanges_setMem {parts : List Part} (h : .mem ∈ parts) (s : State) (m : Memory) :
    onlyChanges parts s (s.setMem m) := by
  intro p hp
  cases p
  case mem => exact absurd h hp
  all_goals simp [Part.same]

theorem onlyChanges_setI {parts : List Part} (h : .addr ∈ parts) (s : State) (v : Word) :
    onlyChanges parts s (s.setI v) := by
  intro p hp
  cases p
  case addr => exact absurd h hp
  all_goals simp [Part.same]

end Sys2Proof.Machine
end

section
/-! PROOFS. The address register and memory (spec/42_address_memory.md R600 to R630). -/

namespace Sys2Proof.Machine

/-! ### The address register (R600 to R620) -/

/-- The address of a glyph, five times an unmasked byte, fits 16 bits (R620). -/
theorem five_mul_byteToWord_toNat (b : Byte) : (5 * byteToWord b).toNat = 5 * b.toNat := by
  rw [BitVec.toNat_mul, byteToWord_toNat]
  exact Nat.mod_eq_of_lt (show 5 * b.toNat < 65536 by omega)

/-- Settles O29: each of the three is a `setI`; only FX1E's sum can wrap. -/
theorem addressRegisterResult : Obligations.AddressRegisterResult := by
  intro x nnn s
  have frame (v : Word) : onlyChanges [.addr] s (s.setI v) := onlyChanges_setI List.mem_cons_self s v
  refine ⟨⟨_, rfl, zext16_toNat nnn, frame _⟩, ⟨_, rfl, ?sum, frame _⟩,
    ⟨_, rfl, five_mul_byteToWord_toNat (s.reg x), frame _⟩⟩
  case sum => rw [setI_I, BitVec.toNat_add, byteToWord_toNat]

/-! ### The decimal digits (R630) -/

@[simp] theorem digits_length (v : Byte) : (digits v).length = 3 := rfl

theorem digits_ne_nil (v : Byte) : digits v ≠ [] := List.cons_ne_nil _ _

/-- Each digit is below 256, so its byte holds it exactly. -/
theorem digits_toNat (v : Byte) :
    (digits v)[0].toNat = v.toNat / 100 ∧ (digits v)[1].toNat = v.toNat / 10 % 10 ∧
      (digits v)[2].toNat = v.toNat % 10 :=
  ⟨Nat.mod_eq_of_lt (by omega), Nat.mod_eq_of_lt (by omega), Nat.mod_eq_of_lt (by omega)⟩

theorem exec_bcd_next (x : Reg) {s : State} (h : s.dataAddr + 3 ≤ 4096) :
    exec (.bcd x) s = .next (s.setMem (s.mem.writeAll s.dataAddr (digits (s.reg x)))) := by
  simp only [exec, execBcd, writeBytes_ok s.mem (bs := digits (s.reg x)) (.inr h)]

theorem exec_bcd_fault (x : Reg) {s : State} (h : 4096 < s.dataAddr + 3) :
    exec (.bcd x) s = .fault (.memOutOfBounds (max s.dataAddr 4096)) := by
  simp only [exec, execBcd, writeBytes_fault s.mem (digits_ne_nil (s.reg x)) h]

/-- Settles O30: inside memory the three digits are written as one string, whose byte `k` is at I + k; else the
write faults at the first address outside. -/
theorem bcdResult : Obligations.BcdResult := by
  intro x s hwf
  refine ⟨fun hfits => ?_, exec_bcd_fault x⟩
  have byteAt (k : Nat) (hk : k < 3) :
      ((s.mem.writeAll s.dataAddr (digits (s.reg x))).read (s.dataAddr + k)).toNat = (digits (s.reg x))[k].toNat :=
    congrArg BitVec.toNat (read_writeAll_inside hwf hfits hk)
  obtain ⟨hundreds, tens, ones⟩ := digits_toNat (s.reg x)
  refine ⟨_, exec_bcd_next x hfits, ?hundreds, ?tens, ?ones, ?bytes, onlyChanges_setMem List.mem_cons_self s _⟩
  case hundreds => exact (byteAt 0 (by decide)).trans hundreds
  case tens => exact (byteAt 1 (by decide)).trans tens
  case ones => exact (byteAt 2 (by decide)).trans ones
  case bytes => exact onlyBytes_setMem_writeAll (bs := digits (s.reg x)) hwf hfits

end Sys2Proof.Machine
end

section
/-! PROOFS. The screen (spec/43_display.md R700, R720 to R725): the cells a DXYN draws, as a list of distinct cells
(`Laws/Display.lean`) and by column and row, and the state it leaves. -/

namespace Sys2Proof.Machine

theorem onlyChanges_setScreen {parts : List Part} (h : .screen ∈ parts) (s : State) (fb : Screen) :
    onlyChanges parts s (s.setScreen fb) := by
  intro p hp
  cases p
  case screen => exact absurd h hp
  all_goals simp [Part.same]

/-- Settles O35: the next state is `setScreen` of the clear screen, each cell of which is off (`cell_clear`). -/
theorem clearResult : Obligations.ClearResult :=
  fun s => ⟨s.setScreen Screen.clear, rfl, fun _ _ => cell_clear _, onlyChanges_setScreen List.mem_cons_self s _⟩

/-! ### The number of a cell (R115) -/

/-- The number of the cell at a column and a row. -/
def cellNumber (cx : Fin 64) (cy : Fin 32) : Fin 2048 := ⟨cx.val + 64 * cy.val, by omega⟩

theorem cell_eq_cellNumber (s : State) (cx : Fin 64) (cy : Fin 32) :
    s.cell cx cy = Screen.cell s.fb (cellNumber cx cy) := rfl

/-- Every cell has a column and a row. -/
theorem exists_cellNumber_eq (k : Fin 2048) : ∃ cx cy, cellNumber cx cy = k :=
  ⟨⟨k.val % 64, by omega⟩, ⟨k.val / 64, by omega⟩, Fin.ext (Nat.mod_add_div k.val 64)⟩

/-- The pixel of a sprite reaches one column and one row, each wrapped on its own (R721). -/
theorem cellNumber_eq_spriteCell (baseX baseY : Byte) (row col : Nat) (cx : Fin 64) (cy : Fin 32) :
    cellNumber cx cy = spriteCell baseX baseY row col ↔
      cx.val = (baseX.toNat + col) % 64 ∧ cy.val = (baseY.toNat + row) % 32 := by
  rw [Fin.ext_iff]
  show cx.val + 64 * cy.val = _ + 64 * _ ↔ _
  omega

/-! ### The cells of a DXYN -/

/-- The cells that the sprite of a DXYN reaches, in drawing order. -/
def State.drawnCells (s : State) (x y : Reg) (n : Nibble) : List (Fin 2048) :=
  spriteCells (s.reg x) (s.reg y) 0 ((List.range n.toNat).map fun k => s.mem.read (s.dataAddr + k))

/-- A sprite of at most 15 rows reaches no cell twice (R722). -/
theorem drawnCells_nodup (s : State) (x y : Reg) (n : Nibble) : (s.drawnCells x y n).Nodup := by
  apply spriteCells_nodup
  rw [List.length_map, List.length_range]
  omega

/-- The list holds exactly the cells of `spriteCovers`. -/
theorem cellNumber_mem_drawnCells (s : State) (x y : Reg) (n : Nibble) (cx : Fin 64) (cy : Fin 32) :
    cellNumber cx cy ∈ s.drawnCells x y n ↔ s.spriteCovers x y n cx cy := by
  simp only [State.drawnCells, mem_spriteCells, cellNumber_eq_spriteCell, Nat.zero_add, List.length_map,
    List.length_range, List.getElem_map, List.getElem_range, exists_prop, State.spriteCovers]

/-- One of the list's cells is on exactly when a covered cell is. -/
theorem any_drawnCells_iff (s : State) (x y : Reg) (n : Nibble) :
    (s.drawnCells x y n).any (Screen.cell s.fb) = true ↔
      ∃ cx cy, s.cell cx cy = true ∧ s.spriteCovers x y n cx cy := by
  rw [List.any_eq_true]
  constructor
  · rintro ⟨k, hk, hon⟩
    obtain ⟨cx, cy, rfl⟩ := exists_cellNumber_eq k
    exact ⟨cx, cy, hon, (cellNumber_mem_drawnCells ..).1 hk⟩
  · rintro ⟨cx, cy, hon, hcov⟩
    exact ⟨cellNumber cx cy, (cellNumber_mem_drawnCells ..).2 hcov, hon⟩

/-! ### The state a DXYN leaves -/

/-- The state after drawing: the sprite's cells toggled, then VF written (R720, R725). -/
def State.afterDraw (s : State) (x y : Reg) (n : Nibble) : State :=
  let c := plotAll (s.drawnCells x y n) (s.fb, false)
  (s.setScreen c.1).setReg vf (flagByte c.2)

theorem exec_drw_next (x y : Reg) {n : Nibble} {s : State} (h : n.toNat = 0 ∨ s.dataAddr + n.toNat ≤ 4096) :
    exec (.drw x y n) s = .next (s.afterDraw x y n) := by
  simp only [exec, execDrw, readBytes_ok s.mem h, drawRows_eq, State.afterDraw, State.drawnCells]

theorem exec_drw_fault (x y : Reg) {n : Nibble} {s : State} (hn : n.toNat ≠ 0)
    (h : 4096 < s.dataAddr + n.toNat) :
    exec (.drw x y n) s = .fault (.memOutOfBounds (max s.dataAddr 4096)) := by
  simp only [exec, execDrw, readBytes_fault s.mem hn h]

theorem afterDraw_cell_ne_iff (s : State) (x y : Reg) (n : Nibble) (cx : Fin 64) (cy : Fin 32) :
    (s.afterDraw x y n).cell cx cy ≠ s.cell cx cy ↔ s.spriteCovers x y n cx cy := by
  rw [← cellNumber_mem_drawnCells, cell_eq_cellNumber, cell_eq_cellNumber, State.afterDraw, setReg_fb, setScreen_fb,
    plotAll_cell (drawnCells_nodup s x y n)]
  by_cases hmem : cellNumber cx cy ∈ s.drawnCells x y n <;> simp [hmem]

theorem afterDraw_vf (s : State) (x y : Reg) (n : Nibble) :
    (s.afterDraw x y n).reg 15 = flagByte ((s.drawnCells x y n).any (Screen.cell s.fb)) := by
  rw [State.afterDraw, vf, reg_setReg_same, plotAll_hit (drawnCells_nodup s x y n), Bool.false_or]

theorem afterDraw_vf_of_collision {s : State} {x y : Reg} {n : Nibble}
    (h : ∃ cx cy, s.cell cx cy = true ∧ s.spriteCovers x y n cx cy) : (s.afterDraw x y n).reg 15 = 1 := by
  rw [afterDraw_vf, (any_drawnCells_iff s x y n).2 h]
  rfl

theorem afterDraw_vf_of_no_collision {s : State} {x y : Reg} {n : Nibble}
    (h : ¬∃ cx cy, s.cell cx cy = true ∧ s.spriteCovers x y n cx cy) : (s.afterDraw x y n).reg 15 = 0 := by
  rw [afterDraw_vf, Bool.eq_false_iff.2 (mt (any_drawnCells_iff s x y n).1 h)]
  rfl

theorem onlyRegs_afterDraw (s : State) (x y : Reg) (n : Nibble) : onlyRegs [15] s (s.afterDraw x y n) :=
  onlyRegs_setReg (r := vf) List.mem_cons_self (s.setScreen _) _

theorem onlyChanges_afterDraw (s : State) (x y : Reg) (n : Nibble) :
    onlyChanges [.regs, .screen] s (s.afterDraw x y n) :=
  onlyChanges_trans (onlyChanges_setScreen (by decide) s _) (onlyChanges_setReg (by decide) _ vf _)

/-- Settles O36: with every row inside memory the next state is `afterDraw`, which negates each cell of a list of
distinct cells once; else the read of the rows faults at the first address outside. -/
theorem drawResult : Obligations.DrawResult := by
  intro x y n s hn
  refine ⟨fun hfits => ⟨s.afterDraw x y n, exec_drw_next x y (.inr hfits), ?cells, ?collision, ?noCollision, ?regs,
    ?frame⟩, ?fault⟩
  case cells => exact afterDraw_cell_ne_iff s x y n
  case collision => exact afterDraw_vf_of_collision
  case noCollision => exact afterDraw_vf_of_no_collision
  case regs => exact onlyRegs_afterDraw s x y n
  case frame => exact onlyChanges_afterDraw s x y n
  case fault => exact exec_drw_fault x y (by omega)

end Sys2Proof.Machine
end

section
/-! PROOFS. Keyboard and timer instructions (spec/44_input_timers.md R820 to R860): the frames of the two timer writes,
and FX0A by whether a key is pressed. -/

namespace Sys2Proof.Machine

/-! ### Wait for a key (R830) -/

/-- With `k` the lowest pressed key, FX0A writes its number. -/
theorem exec_ldRegKey_pressed (x : Reg) {s : State} {k : Fin 16} (hk : s.key[k.val] = true)
    (hlow : ∀ j : Fin 16, j < k → s.key[j.val] = false) :
    exec (.ldRegKey x) s = .next (s.setReg x (BitVec.ofNat 8 k.val)) := by
  simp only [exec, execLdRegKey, (lowestKey_some s k).2 ⟨hk, hlow⟩]

/-- With no key pressed, FX0A moves `pc` back to itself. -/
theorem exec_ldRegKey_noKey (x : Reg) {s : State} (h : s.noKey) :
    exec (.ldRegKey x) s = .next (s.setPc s.instrAddr) := by
  simp only [exec, execLdRegKey, (lowestKey_none s).2 h, State.instrAddr]

/-- Settles O40: a pressed key gives one `setReg` of its number, which fits a byte; no key gives one `setPc`, of the
address the instruction was fetched from. -/
theorem waitForKeyResult : Obligations.WaitForKeyResult := by
  intro x s p hp
  constructor
  · intro k hk hlow
    refine ⟨_, exec_ldRegKey_pressed x hk hlow, ?number, onlyRegs_setReg List.mem_cons_self s _,
      onlyChanges_setReg List.mem_cons_self s x _⟩
    case number =>
      rw [reg_setReg_same, BitVec.toNat_ofNat]
      exact Nat.mod_eq_of_lt (by omega)
  · intro hnone
    exact ⟨_, exec_ldRegKey_noKey x hnone, instrAddr_eq hp, onlyChanges_setPc List.mem_cons_self s _⟩

/-! ### Timers (R820, R850, R860) -/

theorem onlyChanges_setDt {parts : List Part} (h : .dt ∈ parts) (s : State) (v : Byte) :
    onlyChanges parts s (s.setDt v) := by
  intro p hp
  cases p
  case dt => exact absurd h hp
  all_goals simp [Part.same]

theorem onlyChanges_setSt {parts : List Part} (h : .st ∈ parts) (s : State) (v : Byte) :
    onlyChanges parts s (s.setSt v) := by
  intro p hp
  cases p
  case st => exact absurd h hp
  all_goals simp [Part.same]

/-- Settles O42: FX07 is a `setReg` of the delay timer, FX15 and FX18 are `setDt` and `setSt` of VX. -/
theorem timerInstructionResult : Obligations.TimerInstructionResult := by
  intro x s
  refine ⟨⟨_, rfl, ?readDelay, onlyRegs_setReg List.mem_cons_self s _,
      onlyChanges_setReg List.mem_cons_self s x _⟩,
    ⟨_, rfl, ?delay, onlyChanges_setDt List.mem_cons_self s _⟩,
    ⟨_, rfl, ?sound, onlyChanges_setSt List.mem_cons_self s _⟩⟩
  case readDelay => exact reg_setReg_same s x s.dt
  case delay => exact setDt_dt s (s.reg x)
  case sound => exact setSt_st s (s.reg x)

end Sys2Proof.Machine
end

section
/-! PROOFS. Decoding an encoding (spec/30_encoding.md R302, R321, R340): the fields of each format give back what was
put into them. -/

namespace Sys2Proof

/-! ### The fields of each format (R302) -/

@[simp] theorem fieldOp_encodeAddr {op : Nat} (h : op < 16) (nnn : Addr12) : fieldOp (encodeAddr op nnn) = op := by
  rw [fieldOp_eq, encodeAddr_toNat op nnn h]
  omega

@[simp] theorem fieldNNN_encodeAddr {op : Nat} (h : op < 16) (nnn : Addr12) :
    fieldNNN (encodeAddr op nnn) = nnn := by
  apply BitVec.eq_of_toNat_eq
  rw [fieldNNN_toNat, encodeAddr_toNat op nnn h]
  omega

@[simp] theorem fieldOp_encodeRegImm {op : Nat} (h : op < 16) (x : Reg) (nn : Byte) :
    fieldOp (encodeRegImm op x nn) = op := by
  rw [fieldOp_eq, encodeRegImm_toNat op x nn h]
  omega

@[simp] theorem fieldX_encodeRegImm {op : Nat} (h : op < 16) (x : Reg) (nn : Byte) :
    fieldX (encodeRegImm op x nn) = x := by
  apply Fin.ext
  rw [fieldX_val, encodeRegImm_toNat op x nn h]
  omega

@[simp] theorem fieldNN_encodeRegImm {op : Nat} (h : op < 16) (x : Reg) (nn : Byte) :
    fieldNN (encodeRegImm op x nn) = nn := by
  apply BitVec.eq_of_toNat_eq
  rw [fieldNN_toNat, encodeRegImm_toNat op x nn h]
  omega

@[simp] theorem fieldOp_encodeRegReg {op f : Nat} (h : op < 16) (hf : f < 16) (x y : Reg) :
    fieldOp (encodeRegReg op x y f) = op := by
  rw [fieldOp_eq, encodeRegReg_toNat op x y f h hf]
  omega

@[simp] theorem fieldX_encodeRegReg {op f : Nat} (h : op < 16) (hf : f < 16) (x y : Reg) :
    fieldX (encodeRegReg op x y f) = x := by
  apply Fin.ext
  rw [fieldX_val, encodeRegReg_toNat op x y f h hf]
  omega

@[simp] theorem fieldY_encodeRegReg {op f : Nat} (h : op < 16) (hf : f < 16) (x y : Reg) :
    fieldY (encodeRegReg op x y f) = y := by
  apply Fin.ext
  rw [fieldY_val, encodeRegReg_toNat op x y f h hf]
  omega

@[simp] theorem fieldN_encodeRegReg {op f : Nat} (h : op < 16) (hf : f < 16) (x y : Reg) :
    fieldN (encodeRegReg op x y f) = BitVec.ofNat 4 f := by
  apply BitVec.eq_of_toNat_eq
  rw [fieldN_toNat, encodeRegReg_toNat op x y f h hf, BitVec.toNat_ofNat]
  omega

/-! ### The round trip -/

/-- The first nibble picks the decoder's case, a function nibble or byte the case of its sub-decoder, and the fields
that are left are the operands. -/
theorem decodeWord_encodeWord (i : Instr) : decodeWord (encodeWord i) = some i := by
  cases i
  case nop | cls | ret => rfl
  case jp | call | ldI | jpV0 => simp [encodeWord, decodeWord]
  case seImm | sneImm | ldImm | addImm | rnd => simp [encodeWord, decodeWord]
  case seReg | sneReg => simp [encodeWord, decodeWord]
  case ldReg | orReg | andReg | xorReg | addReg | subReg | shr | subnReg | shl =>
    simp [encodeWord, decodeWord, decodeEight]
  case drw x y n => simp [encodeWord, decodeWord, n.isLt]
  case skp | sknp => simp [encodeWord, decodeWord, decodeE]
  case ldRegDt | ldRegKey | ldDtReg | ldStReg | addI | ldFont | bcd | storeRegs | loadRegs =>
    simp [encodeWord, decodeWord, decodeF]

/-- Settles O1: the word by `decodeWord_encodeWord`; the two bytes join to the word again. -/
theorem decodeOfEncode : Obligations.DecodeOfEncode := by
  intro i rest
  refine ⟨decodeWord_encodeWord i, ?_⟩
  simp only [encode, List.cons_append, List.nil_append, decodeBytes, joinBytes_high_low, decodeWord_encodeWord]

/-! ### The opcode map with the operands in their fields (R301, R340) -/

/-- Format REGREG, with the function nibble beside the first. -/
theorem decodeWord_regReg {i : Instr} {op f : Nat} {x y : Reg} (hi : encodeWord i = encodeRegReg op x y f) :
    decodeWord (BitVec.ofNat 16 (op * 0x1000 + f + x.val * 0x100 + y.val * 0x10)) = some i := by
  rw [← decodeWord_encodeWord i, hi, encodeRegReg, ofNibbles]
  congr 2
  omega

/-- Format REG, with the function byte beside the first nibble. -/
theorem decodeWord_reg {i : Instr} {op : Nat} {x : Reg} {ff : Byte} (hi : encodeWord i = encodeRegImm op x ff) :
    decodeWord (BitVec.ofNat 16 (op * 0x1000 + ff.toNat + x.val * 0x100)) = some i := by
  rw [← decodeWord_encodeWord i, hi, encodeRegImm]
  congr 2
  omega

/-- Settles O3: in rows without a function nibble or byte the word is the encoder's own sum, in the others
`decodeWord_regReg` and `decodeWord_reg` put the function back in its place. -/
theorem opcodeMapRowByRow : Obligations.OpcodeMapRowByRow := by
  intro x y n nn nnn X Y word
  have row (i : Instr) : decodeWord (encodeWord i) = some i := decodeWord_encodeWord i
  exact ⟨row .nop, row .cls, row .ret, row (.jp nnn), row (.call nnn), row (.seImm x nn), row (.sneImm x nn),
    row (.seReg x y), row (.ldImm x nn), row (.addImm x nn), row (.ldReg x y),
    decodeWord_regReg (op := 0x8) (f := 0x1) rfl, decodeWord_regReg (op := 0x8) (f := 0x2) rfl,
    decodeWord_regReg (op := 0x8) (f := 0x3) rfl, decodeWord_regReg (op := 0x8) (f := 0x4) rfl,
    decodeWord_regReg (op := 0x8) (f := 0x5) rfl, decodeWord_regReg (op := 0x8) (f := 0x6) rfl,
    decodeWord_regReg (op := 0x8) (f := 0x7) rfl, decodeWord_regReg (op := 0x8) (f := 0xE) rfl,
    row (.sneReg x y), row (.ldI nnn), row (.jpV0 nnn), row (.rnd x nn), row (.drw x y n),
    decodeWord_reg (op := 0xE) (ff := 0x9E) rfl, decodeWord_reg (op := 0xE) (ff := 0xA1) rfl,
    decodeWord_reg (op := 0xF) (ff := 0x07) rfl, decodeWord_reg (op := 0xF) (ff := 0x0A) rfl,
    decodeWord_reg (op := 0xF) (ff := 0x15) rfl, decodeWord_reg (op := 0xF) (ff := 0x18) rfl,
    decodeWord_reg (op := 0xF) (ff := 0x1E) rfl, decodeWord_reg (op := 0xF) (ff := 0x29) rfl,
    decodeWord_reg (op := 0xF) (ff := 0x33) rfl, decodeWord_reg (op := 0xF) (ff := 0x55) rfl,
    decodeWord_reg (op := 0xF) (ff := 0x65) rfl⟩

/-- Settles O6: each word is read from its literal bits. -/
theorem specExampleWordsDecode : Obligations.SpecExampleWordsDecode := by
  unfold Obligations.SpecExampleWordsDecode
  decide

end Sys2Proof
end

section
/-! PROOFS. The words that are no instruction, and the rows of R340 as the decoder's domain (spec/30_encoding.md R321,
R340, R350). -/

namespace Sys2Proof

/-! ### The decoders of the first nibbles 0, 8, E and F (R350) -/

theorem decodeZero_eq_none (w : Word) :
    decodeZero w = none ↔ w.toNat ≠ 0x0000 ∧ w.toNat ≠ 0x00E0 ∧ w.toNat ≠ 0x00EE := by
  unfold decodeZero
  split <;> simp_all

theorem decodeEight_eq_none (w : Word) :
    decodeEight w = none ↔ w.toNat % 16 ∈ [0x8, 0x9, 0xA, 0xB, 0xC, 0xD, 0xF] := by
  unfold decodeEight
  rw [fieldN_toNat]
  have := Nat.mod_lt w.toNat (show 16 > 0 by decide)
  split <;> simp_all
  omega

theorem decodeE_eq_none (w : Word) : decodeE w = none ↔ w.toNat % 256 ∉ [0x9E, 0xA1] := by
  unfold decodeE
  rw [fieldNN_toNat]
  split <;> simp_all

theorem decodeF_eq_none (w : Word) :
    decodeF w = none ↔ w.toNat % 256 ∉ [0x07, 0x0A, 0x15, 0x18, 0x1E, 0x29, 0x33, 0x55, 0x65] := by
  unfold decodeF
  rw [fieldNN_toNat]
  split <;> simp_all

/-- The decoder's test of the last nibble in 5XY0 and 9XY0, as arithmetic. -/
theorem fieldN_eq_zero (w : Word) : fieldN w = 0#4 ↔ w.toNat % 16 = 0 := by
  rw [← fieldN_toNat, ← BitVec.toNat_inj, BitVec.toNat_ofNat]

/-- Settles O5, along the decoder's match on the first nibble (`h_1` is nibble 0, `h_16` nibble F). -/
theorem illegalWords : Obligations.IllegalWords := by
  intro w
  unfold decodeWord
  rw [fieldOp_eq]
  split
  case h_1 hop => simp [hop, decodeZero_eq_none]
  case h_9 hop => simp [hop, decodeEight_eq_none]
  case h_15 hop => simp [hop, decodeE_eq_none]
  case h_16 hop => simp [hop, decodeF_eq_none]
  case h_6 hop | h_10 hop => simp [hop, fieldN_eq_zero]
  case h_2 hop | h_3 hop | h_4 hop | h_5 hop | h_7 hop | h_8 hop | h_11 hop | h_12 hop | h_13 hop | h_14 hop =>
    simp [hop]
  case h_17 =>
    simp only [imp_false] at *
    omega

/-! ### The rows of R340 -/

/-- Matching a row whose every nibble is fixed. -/
theorem eq_of_matchesWord {bits w : Word} (h : OpcodeRow.matchesWord ⟨0xFFFF, bits⟩ w = true) : w = bits := by
  have hbits : w &&& BitVec.allOnes 16 = bits := beq_iff_eq.1 h
  rwa [BitVec.and_allOnes] at hbits

/-- Matching a row that fixes the first nibble alone. -/
theorem fieldOp_of_matchesWord {bits w : Word} (h : OpcodeRow.matchesWord ⟨0xF000, bits⟩ w = true) :
    fieldOp w = fieldOp bits := by
  obtain rfl : w &&& 0xF000#16 = bits := beq_iff_eq.1 h
  rw [fieldOp_eq, fieldOp_eq, and_op_mask_toNat]
  omega

/-- Matching a row that fixes the first and the last nibble. -/
theorem fieldOp_fieldN_of_matchesWord {bits w : Word} (h : OpcodeRow.matchesWord ⟨0xF00F, bits⟩ w = true) :
    fieldOp w = fieldOp bits ∧ fieldN w = fieldN bits := by
  obtain rfl : w &&& 0xF00F#16 = bits := beq_iff_eq.1 h
  rw [fieldOp_eq, fieldOp_eq, ← BitVec.toNat_inj, fieldN_toNat, fieldN_toNat, and_op_n_mask_toNat]
  omega

/-- Matching a row that fixes the first nibble and the low byte. -/
theorem fieldOp_fieldNN_of_matchesWord {bits w : Word} (h : OpcodeRow.matchesWord ⟨0xF0FF, bits⟩ w = true) :
    fieldOp w = fieldOp bits ∧ fieldNN w = fieldNN bits := by
  obtain rfl : w &&& 0xF0FF#16 = bits := beq_iff_eq.1 h
  rw [fieldOp_eq, fieldOp_eq, ← BitVec.toNat_inj, fieldNN_toNat, fieldNN_toNat, and_op_nn_mask_toNat]
  omega

/-- The rows, sorted by which nibbles they fix. -/
theorem opcodeRows_by_mask : ∀ r ∈ opcodeRows,
    (r.mask = 0xFFFF ∧ r.bits ∈ [0x0000, 0x00E0, 0x00EE]) ∨
    (r.mask = 0xF000 ∧ r.bits ∈ [0x1000, 0x2000, 0x3000, 0x4000, 0x6000, 0x7000, 0xA000, 0xB000, 0xC000,
      0xD000]) ∨
    (r.mask = 0xF00F ∧ r.bits ∈ [0x5000, 0x8000, 0x8001, 0x8002, 0x8003, 0x8004, 0x8005, 0x8006, 0x8007, 0x800E,
      0x9000]) ∨
    (r.mask = 0xF0FF ∧ r.bits ∈ [0xE09E, 0xE0A1, 0xF007, 0xF00A, 0xF015, 0xF018, 0xF01E, 0xF029, 0xF033, 0xF055,
      0xF065]) := by
  decide

/-- A word that matches a row decodes to an instruction of that row: the nibbles the row fixes are those the decoder
tests. -/
theorem decodeWord_of_matchesWord {r : OpcodeRow} {w : Word} (hr : r ∈ opcodeRows) (h : r.matchesWord w = true) :
    ∃ i, decodeWord w = some i ∧ Laws.WordMatchesRow.row i = r := by
  obtain ⟨mask, bits⟩ := r
  obtain ⟨rfl, hb⟩ | ⟨rfl, hb⟩ | ⟨rfl, hb⟩ | ⟨rfl, hb⟩ := opcodeRows_by_mask _ hr
  case inl =>
    obtain rfl := eq_of_matchesWord h
    fin_cases hb <;> exact ⟨_, rfl, rfl⟩
  case inr.inl =>
    simp only [decodeWord, fieldOp_of_matchesWord h]
    fin_cases hb <;> exact ⟨_, rfl, rfl⟩
  case inr.inr.inl =>
    obtain ⟨hop, hn⟩ := fieldOp_fieldN_of_matchesWord h
    simp only [decodeWord, decodeEight, hop, hn]
    fin_cases hb <;> exact ⟨_, rfl, rfl⟩
  case inr.inr.inr =>
    obtain ⟨hop, hnn⟩ := fieldOp_fieldNN_of_matchesWord h
    simp only [decodeWord, decodeE, decodeF, hop, hnn]
    fin_cases hb <;> exact ⟨_, rfl, rfl⟩

section
open Laws.WordMatchesRow

/-- `WordMatchesRow` for every instruction at once. -/
theorem wordMatchesRow_all (i : Instr) : Laws.WordMatchesRow.Statement i := by
  cases i
  exacts [nop, cls, ret, jp _, call _, seImm _ _, sneImm _ _, seReg _ _, ldImm _ _, addImm _ _, ldReg _ _, orReg _ _,
    andReg _ _, xorReg _ _, addReg _ _, subReg _ _, shr _ _, subnReg _ _, shl _ _, sneReg _ _, ldI _, jpV0 _, rnd _ _,
    drw _ _ _, skp _, sknp _, ldRegDt _, ldRegKey _, ldDtReg _, ldStReg _, addI _, ldFont _, bcd _, storeRegs _,
    loadRegs _]

end

/-- Settles O4: a decoded word is its instruction's spelling, which matches the instruction's row; and the row of the
one instruction a word decodes to is the only one it can match. -/
theorem decodeIffExactlyOneRowMatches : Obligations.DecodeIffExactlyOneRowMatches := by
  intro w
  refine ⟨⟨?matched, ?decoded⟩, ?unique⟩
  case matched =>
    intro hsome
    obtain ⟨i, hi⟩ := Option.isSome_iff_exists.1 hsome
    rw [← encodeOfDecode w i hi]
    exact ⟨_, wordMatchesRow_all i⟩
  case decoded =>
    rintro ⟨r, hr, hmatch⟩
    obtain ⟨i, hi, -⟩ := decodeWord_of_matchesWord hr hmatch
    exact Option.isSome_iff_exists.2 ⟨i, hi⟩
  case unique =>
    intro r₁ hr₁ r₂ hr₂ h₁ h₂
    obtain ⟨i, hi, rfl⟩ := decodeWord_of_matchesWord hr₁ h₁
    obtain ⟨j, hj, rfl⟩ := decodeWord_of_matchesWord hr₂ h₂
    rw [Option.some.inj (hi.symm.trans hj)]

end Sys2Proof
end

section
/-! PROOFS. Registers and arithmetic (spec/41_alu.md R540 to R590): the five forms that write VX and then VF, and the
random byte. -/

namespace Sys2Proof.Machine

/-! ### The result, then the flag (R596) -/

@[simp] theorem flagByte_toNat (b : Bool) : (flagByte b).toNat = if b = true then 1 else 0 := by
  cases b <;> rfl

theorem onlyRegs_setResultThenFlag (s : State) (x : Reg) (result flag : Byte) :
    onlyRegs [x, 15] s (s.setResultThenFlag x result flag) := by
  intro r hr
  rw [List.mem_cons, List.mem_singleton, not_or] at hr
  rw [reg_setResultThenFlag, if_neg hr.2, if_neg hr.1]

theorem onlyChanges_setResultThenFlag {parts : List Part} (h : .regs ∈ parts) (s : State) (x : Reg)
    (result flag : Byte) : onlyChanges parts s (s.setResultThenFlag x result flag) :=
  onlyChanges_trans (onlyChanges_setReg h s x result) (onlyChanges_setReg h _ vf flag)

/-- What the five forms share: the value of VX for X other than 15, the value of VF, and the frames. -/
theorem setResultThenFlag_result (s : State) (x : Reg) {result flag : Byte} {m k : Nat} (hm : result.toNat = m)
    (hk : flag.toNat = k) :
    (x ≠ 15 → ((s.setResultThenFlag x result flag).reg x).toNat = m) ∧
      ((s.setResultThenFlag x result flag).reg 15).toNat = k ∧
      onlyRegs [x, 15] s (s.setResultThenFlag x result flag) ∧
      onlyChanges [.regs] s (s.setResultThenFlag x result flag) := by
  refine ⟨fun hx => ?result, ?flag, onlyRegs_setResultThenFlag s x result flag,
    onlyChanges_setResultThenFlag List.mem_cons_self s x result flag⟩
  case result => rw [reg_setResultThenFlag, if_neg hx, if_pos rfl, hm]
  case flag => rw [reg_setResultThenFlag, if_pos rfl, hk]

theorem carryOut_toNat (a b : Byte) : (carryOut a b).toNat = if 256 ≤ a.toNat + b.toNat then 1 else 0 := by
  simp [carryOut]

theorem notBorrow_toNat (a b : Byte) : (notBorrow a b).toNat = if b.toNat ≤ a.toNat then 1 else 0 := by
  simp [notBorrow]

theorem bitOutRight_toNat (a : Byte) : (bitOutRight a).toNat = a.toNat % 2 := by
  rw [bitOutRight, flagByte_toNat, BitVec.getLsbD, Nat.testBit_zero]
  split <;> simp_all

theorem bitOutLeft_toNat (a : Byte) : (bitOutLeft a).toNat = a.toNat / 128 := by
  have hbit : a.getLsbD 7 = true ↔ 128 ≤ a.toNat := by
    rw [BitVec.getLsbD, Nat.testBit_eq_decide_div_mod_eq, decide_eq_true_iff]
    omega
  simp only [bitOutLeft, flagByte_toNat, hbit]
  split <;> omega

/-- Subtraction as R550 and R570 write it. -/
theorem byte_sub_toNat (a b : Byte) : (a - b).toNat = (a.toNat + 256 - b.toNat) % 256 := by
  rw [BitVec.toNat_sub]
  omega

/-- Settles O23: byte addition is modulo 256, and the flag is the carry of the exact sum. -/
theorem addRegistersResult : Obligations.AddRegistersResult :=
  fun x y s => ⟨_, rfl, setResultThenFlag_result s x (BitVec.toNat_add _ _) (carryOut_toNat (s.reg x) (s.reg y))⟩

/-- Settles O24: byte subtraction is modulo 256, and the flag compares VX with VY. -/
theorem subtractResult : Obligations.SubtractResult :=
  fun x y s => ⟨_, rfl, setResultThenFlag_result s x (byte_sub_toNat _ _) (notBorrow_toNat (s.reg x) (s.reg y))⟩

/-- Settles O25: as O24, with the two registers in the other order. -/
theorem subtractReverseResult : Obligations.SubtractReverseResult :=
  fun x y s => ⟨_, rfl, setResultThenFlag_result s x (byte_sub_toNat _ _) (notBorrow_toNat (s.reg y) (s.reg x))⟩

/-- Settles O26: a right shift halves; the meaning does not mention `Y`. -/
theorem shiftRightResult : Obligations.ShiftRightResult := by
  intro x y s
  have half : (s.reg x >>> 1).toNat = (s.reg x).toNat / 2 := by
    rw [BitVec.toNat_ushiftRight, Nat.shiftRight_one]
  obtain ⟨result, flag, others, frame⟩ := setResultThenFlag_result s x half (bitOutRight_toNat (s.reg x))
  exact ⟨_, rfl, result, flag, others, frame, fun _ => rfl⟩

/-- Settles O27: a left shift doubles modulo 256; the meaning does not mention `Y`. -/
theorem shiftLeftResult : Obligations.ShiftLeftResult := by
  intro x y s
  have double : (s.reg x <<< 1).toNat = 2 * (s.reg x).toNat % 256 := by
    rw [BitVec.toNat_shiftLeft, Nat.shiftLeft_eq, Nat.pow_one, Nat.mul_comm]
  obtain ⟨result, flag, others, frame⟩ := setResultThenFlag_result s x double (bitOutLeft_toNat (s.reg x))
  exact ⟨_, rfl, result, flag, others, frame, fun _ => rfl⟩

/-! ### The random byte (R590) -/

theorem onlyChanges_drawByte {parts : List Part} (h : .freeCount ∈ parts) (s : State) :
    onlyChanges parts s s.drawByte.2 := by
  intro p hp
  cases p
  case freeCount => exact absurd h hp
  all_goals simp [Part.same]

theorem onlyChanges_rnd (s : State) (x : Reg) (v : Byte) :
    onlyChanges [.regs, .freeCount] s (s.drawByte.2.setReg x v) :=
  onlyChanges_trans (onlyChanges_drawByte (by decide) s) (onlyChanges_setReg (by decide) _ x v)

/-- Settles O28: one draw, then a `setReg` of the drawn byte AND NN. -/
theorem randomResult : Obligations.RandomResult := by
  intro x nn s
  refine ⟨_, rfl, ?bits, ?masked, rfl, ?others, onlyChanges_rnd s x _⟩
  case bits => exact fun k _ => by rw [reg_setReg_same, drawByte_byte, BitVec.getLsbD_and]
  case masked =>
    rintro rfl
    rw [reg_setReg_same]
    exact BitVec.and_zero
  case others => exact onlyRegs_setReg List.mem_cons_self s.drawByte.2 _

end Sys2Proof.Machine
end

section
/-! PROOFS. An instruction that can fault, as one statement: the next state where a condition holds, else one fault
(spec/60_exceptions.md R901). -/

namespace Sys2Proof.Machine

/-- The answer is the next state `u` where the condition holds, else the fault `r₀`. -/
structure FaultsUnless (res : Result) (c : Prop) (u : c → State) (r₀ : Fault) : Prop where
  next : ∀ h : c, res = .next (u h)
  fault : ¬c → res = .fault r₀

namespace FaultsUnless

variable {res res' : Result} {c : Prop} {u : c → State} {r₀ : Fault}

theorem next_iff (h : FaultsUnless res c u r₀) {t : State} : res = .next t ↔ ∃ hc : c, t = u hc := by
  by_cases hc : c
  · rw [h.next hc]
    exact ⟨fun he => ⟨hc, by cases he; rfl⟩, fun ⟨_, he⟩ => by rw [he]⟩
  · rw [h.fault hc]
    exact ⟨nofun, fun ⟨hc', _⟩ => absurd hc' hc⟩

theorem fault_iff (h : FaultsUnless res c u r₀) {r : Fault} : res = .fault r ↔ ¬c ∧ r = r₀ := by
  by_cases hc : c
  · rw [h.next hc]
    exact ⟨nofun, fun ⟨hn, _⟩ => absurd hc hn⟩
  · rw [h.fault hc]
    exact ⟨fun he => ⟨hc, by cases he; rfl⟩, fun ⟨_, he⟩ => by rw [he]⟩

theorem ne_refused (h : FaultsUnless res c u r₀) (r : Refusal) : res ≠ .refused r := by
  by_cases hc : c
  · simp [h.next hc]
  · simp [h.fault hc]

end FaultsUnless

/-! ### The eight instructions that can fault -/

theorem call_faultsUnless (nnn : Addr12) (s : State) :
    FaultsUnless (exec (.call nnn) s) (s.sp.val < 16)
      (fun h => State.setPc
        { s with stack := s.stack.set s.sp.val s.pc, sp := ⟨s.sp.val + 1, by omega⟩ } (zext16 nnn))
      (.stackOverflow s.instrAddr.toNat) :=
  ⟨fun h => exec_call_next nnn h, fun h => exec_call_fault nnn (by omega)⟩

theorem ret_faultsUnless (s : State) :
    FaultsUnless (exec .ret s) (0 < s.sp.val)
      (fun h => State.setPc { s with sp := ⟨s.sp.val - 1, by omega⟩ } (s.stack[s.sp.val - 1]'(by omega)))
      (.stackUnderflow s.instrAddr.toNat) :=
  ⟨fun h => exec_ret_next h, fun h => exec_ret_fault (by omega)⟩

theorem drw_faultsUnless (x y : Reg) (n : Nibble) (s : State) :
    FaultsUnless (exec (.drw x y n) s) (n.toNat = 0 ∨ s.dataAddr + n.toNat ≤ 4096)
      (fun _ => s.afterDraw x y n) (.memOutOfBounds (max s.dataAddr 4096)) :=
  ⟨fun h => exec_drw_next x y h, fun h => exec_drw_fault x y (by omega) (by omega)⟩

theorem bcd_faultsUnless (x : Reg) (s : State) :
    FaultsUnless (exec (.bcd x) s) (s.dataAddr + 3 ≤ 4096)
      (fun _ => s.setMem (s.mem.writeAll s.dataAddr (digits (s.reg x)))) (.memOutOfBounds (max s.dataAddr 4096)) :=
  ⟨fun h => exec_bcd_next x h, fun h => exec_bcd_fault x (by omega)⟩

theorem storeRegs_faultsUnless (x : Reg) (s : State) :
    FaultsUnless (exec (.storeRegs x) s) (s.dataAddr + (x.val + 1) ≤ 4096)
      (fun _ => s.setMem (s.mem.writeAll s.dataAddr (s.regsUpTo x))) (.memOutOfBounds (max s.dataAddr 4096)) := by
  have hne : s.regsUpTo x ≠ [] := List.ne_nil_of_length_eq_add_one (regsUpTo_length s x)
  obtain ⟨hfits, hw⟩ | ⟨hout, hw⟩ := writeBytes_cases s.mem s.dataAddr hne
  · rw [regsUpTo_length] at hfits
    exact ⟨fun _ => by simp only [exec, execStoreRegs, hw], fun h => absurd hfits h⟩
  · rw [regsUpTo_length] at hout
    exact ⟨fun h => absurd h (by omega), fun _ => by simp only [exec, execStoreRegs, hw]⟩

/-- The register file after FX65. -/
def State.afterLoadRegs (s : State) (x : Reg) : State :=
  s.setRegs (fillRegs 0 ((List.range (x.val + 1)).map fun k => s.mem.read (s.dataAddr + k)) s.x)

theorem loadRegs_faultsUnless (x : Reg) (s : State) :
    FaultsUnless (exec (.loadRegs x) s) (s.dataAddr + (x.val + 1) ≤ 4096)
      (fun _ => s.afterLoadRegs x) (.memOutOfBounds (max s.dataAddr 4096)) := by
  obtain ⟨hfits, hr⟩ | ⟨-, hout, hr⟩ := readBytes_cases s.mem s.dataAddr (x.val + 1)
  · exact ⟨fun _ => by simp only [exec, execLoadRegs, hr, State.afterLoadRegs], fun h => absurd hfits (by omega)⟩
  · exact ⟨fun h => absurd h (by omega), fun _ => by simp only [exec, execLoadRegs, hr]⟩

theorem skp_faultsUnless (x : Reg) (s : State) :
    FaultsUnless (exec (.skp x) s) ((s.reg x).toNat < 16) (fun h => s.skipIf s.key[(s.reg x).toNat])
      (.keyIndexOutOfRange (s.reg x).toNat) :=
  ⟨fun h => by simp only [exec, execSkp, keyAt_ok s h],
    fun h => by simp only [exec, execSkp, keyAt_fault s (Nat.le_of_not_lt h)]⟩

theorem sknp_faultsUnless (x : Reg) (s : State) :
    FaultsUnless (exec (.sknp x) s) ((s.reg x).toNat < 16) (fun h => s.skipIf !s.key[(s.reg x).toNat])
      (.keyIndexOutOfRange (s.reg x).toNat) :=
  ⟨fun h => by simp only [exec, execSknp, keyAt_ok s h],
    fun h => by simp only [exec, execSknp, keyAt_fault s (Nat.le_of_not_lt h)]⟩

/-- FX0A never faults: it writes the lowest pressed key, or moves `pc` back to itself. -/
theorem ldRegKey_cases (x : Reg) (s : State) :
    (s.noKey ∧ exec (.ldRegKey x) s = .next (s.setPc s.instrAddr)) ∨
    ∃ k : Fin 16, s.key[k.val] = true ∧ exec (.ldRegKey x) s = .next (s.setReg x (BitVec.ofNat 8 k.val)) := by
  cases hlow : s.lowestKey with
  | none =>
    have hnone : s.noKey := (lowestKey_none s).1 hlow
    exact .inl ⟨hnone, exec_ldRegKey_noKey x hnone⟩
  | some k =>
    obtain ⟨hk, hlower⟩ := (lowestKey_some s k).1 hlow
    exact .inr ⟨k, hk, exec_ldRegKey_pressed x hk hlower⟩

/-! ### Keys (R800, R810) and the empty sprite (R723) -/

/-- Settles O39: the key is below 16 exactly where the two forms complete, and both are a `skipIf` on its entry. -/
theorem keySkipResult : Obligations.KeySkipResult := by
  intro x s p hp
  refine ⟨fun k hk => ⟨⟨_, (skp_faultsUnless x s).next (by omega), ?skp, onlyChanges_skipIf _ s⟩,
    ⟨_, (sknp_faultsUnless x s).next (by omega), ?sknp, onlyChanges_skipIf _ s⟩⟩,
    fun hbad => ⟨?skpFault, ?sknpFault⟩⟩
  case skp =>
    rw [skipIf_pc_of_pc hp]
    simp only [hk]
  case sknp =>
    rw [skipIf_pc_of_pc hp]
    simp only [hk]
    cases s.key[k.val] <;> rfl
  case skpFault => exact (skp_faultsUnless x s).fault (by omega)
  case sknpFault => exact (sknp_faultsUnless x s).fault (by omega)

/-- Settles O37: with no row there is nothing to read and nothing to toggle, so only VF is written. -/
theorem drawOfNoRows : Obligations.DrawOfNoRows := by
  intro x y s
  have hexec : exec (.drw x y 0) s = .next (s.setReg vf 0) := rfl
  exact ⟨_, hexec, rfl, reg_setReg_same s vf 0, onlyRegs_setReg List.mem_cons_self s 0,
    onlyChanges_setReg List.mem_cons_self s vf 0⟩

end Sys2Proof.Machine
end

section
/-! PROOFS. Registers stored to memory and loaded back (spec/42_address_memory.md R640, R650). -/

namespace Sys2Proof.Machine

/-- Byte `k` of FX55's store is Vk. -/
theorem read_storeRegs {x : Reg} {s : State} (h : s.mem.wf = true) (hfits : s.dataAddr + (x.val + 1) ≤ 4096)
    {k : Reg} (hk : k.val ≤ x.val) :
    (s.mem.writeAll s.dataAddr (s.regsUpTo x)).read (s.dataAddr + k.val) = s.reg k := by
  have hlen := regsUpTo_length s x
  rw [read_writeAll_inside h (by omega) (by omega)]
  exact (List.getElem_eq_iff _).2 (regsUpTo_get s x k hk)

/-- Register `k` of FX65's load is byte `k` from I on. -/
theorem reg_afterLoadRegs {x k : Reg} (hk : k.val ≤ x.val) (s : State) :
    (s.afterLoadRegs x).reg k = s.mem.read (s.dataAddr + k.val) := by
  rw [State.afterLoadRegs, reg_setRegs, fillRegs_get, if_pos (Nat.zero_le _)]
  simp [show k.val < x.val + 1 by omega]

theorem reg_afterLoadRegs_above {x k : Reg} (hk : x.val < k.val) (s : State) :
    (s.afterLoadRegs x).reg k = s.reg k := by
  rw [State.afterLoadRegs, reg_setRegs, fillRegs_get, if_pos (Nat.zero_le _), List.getElem?_eq_none, Option.getD_none]
  · rfl
  · simp
    omega

theorem onlyChanges_setRegs {parts : List Part} (h : .regs ∈ parts) (s : State) (v : Vector Byte 16) :
    onlyChanges parts s (s.setRegs v) := by
  intro p hp
  cases p
  case regs => exact absurd h hp
  all_goals simp [Part.same]

/-- Settles O31: inside memory V0 to VX are written as one string; else the write faults at the first address
outside. -/
theorem storeRegistersResult : Obligations.StoreRegistersResult := by
  intro x s hwf
  refine ⟨fun hfits => ⟨_, (storeRegs_faultsUnless x s).next hfits, ?stored, ?bytes,
    onlyChanges_setMem List.mem_cons_self s _⟩, fun hout => (storeRegs_faultsUnless x s).fault (by omega)⟩
  case stored => exact fun k hk => read_storeRegs hwf hfits hk
  case bytes =>
    rw [← regsUpTo_length s x] at hfits ⊢
    exact onlyBytes_setMem_writeAll hwf hfits

/-- Settles O32: inside memory the bytes fill the registers from V0 on; else the read faults at the first address
outside. -/
theorem loadRegistersResult : Obligations.LoadRegistersResult := by
  intro x s
  refine ⟨fun hfits => ⟨_, (loadRegs_faultsUnless x s).next hfits, ?loaded, ?above,
    onlyChanges_setRegs List.mem_cons_self s _⟩, fun hout => (loadRegs_faultsUnless x s).fault (by omega)⟩
  case loaded => exact fun k hk => reg_afterLoadRegs hk s
  case above => exact fun k hk => reg_afterLoadRegs_above hk s

/-- Settles O33: the load reads at the address and in the memory that the store left, where byte `k` is the old Vk. -/
theorem loadUndoesStore : Obligations.LoadUndoesStore := by
  intro x s t u hwf hstore hmem hI
  obtain ⟨hfits, rfl⟩ := (storeRegs_faultsUnless x s).next_iff.1 hstore
  have haddr : u.dataAddr = s.dataAddr := congrArg BitVec.toNat hI
  refine ⟨_, (loadRegs_faultsUnless x u).next (haddr ▸ hfits), fun k hk => ?_⟩
  rw [reg_afterLoadRegs hk, hmem, haddr]
  exact read_storeRegs hwf hfits hk

end Sys2Proof.Machine
end

section
/-! PROOFS. Rules about all instructions (spec/10_state.md R104, R109 to R115; spec/60_exceptions.md R901): which
instruction refuses, which faults and when, and what each leaves unchanged. -/

namespace Sys2Proof.Machine

/-! ### All that a STEP can do -/

theorem step_of_faulted {s : State} {r : Fault} (h : s.fault = some r) : step s = .fault r := by
  simp only [step, h]

/-- Settles O9: the fetched word is `w`, and the STEP answers the decoder's rejection. -/
theorem unknownWordFaults : Obligations.UnknownWordFaults := by
  intro s w hf hp hw hd
  obtain rfl : w = joinBytes (s.mem.read s.pc.toNat) (s.mem.read (s.pc.toNat + 1)) :=
    BitVec.eq_of_toNat_eq (by rw [joinBytes_toNat, hw])
  simp only [step, hf, fetchWord_ok hp, hd]

/-- The fault of a faulted machine, a fault of the fetch or of the decoder, or what an instruction answers (R905). -/
theorem step_cases (s : State) :
    (∃ r, s.fault = some r ∧ step s = .fault r) ∨
    (s.fault = none ∧ (step s = .fault (.fetchOutOfBounds s.pc.toNat) ∨
      (∃ w : Word, step s = .fault (.unknownOpcode w.toNat)) ∨ ∃ i, step s = exec i s.advancePc)) := by
  cases hf : s.fault with
  | some r => exact .inl ⟨r, rfl, step_of_faulted hf⟩
  | none =>
    refine .inr ⟨rfl, ?_⟩
    obtain hp | hp := Nat.lt_or_ge 4094 s.pc.toNat
    · exact .inl (fetchPastTheEndFaults s hf hp)
    · cases hd : decodeWord (joinBytes (s.mem.read s.pc.toNat) (s.mem.read (s.pc.toNat + 1))) with
      | none => exact .inr (.inl ⟨_, unknownWordFaults s _ hf hp (joinBytes_toNat ..) hd⟩)
      | some i => exact .inr (.inr ⟨i, step_of_fetchWord_ok hf (fetchWord_ok hp) hd⟩)

/-! ### Refusals and faults -/

theorem exec_ne_refused (i : Instr) (s : State) (r : Refusal) : exec i s ≠ .refused r := by
  cases i
  case call nnn => exact (call_faultsUnless nnn s).ne_refused r
  case ret => exact (ret_faultsUnless s).ne_refused r
  case drw x y n => exact (drw_faultsUnless x y n s).ne_refused r
  case bcd x => exact (bcd_faultsUnless x s).ne_refused r
  case storeRegs x => exact (storeRegs_faultsUnless x s).ne_refused r
  case loadRegs x => exact (loadRegs_faultsUnless x s).ne_refused r
  case skp x => exact (skp_faultsUnless x s).ne_refused r
  case sknp x => exact (sknp_faultsUnless x s).ne_refused r
  case ldRegKey x =>
    obtain ⟨-, h⟩ | ⟨k, -, h⟩ := ldRegKey_cases x s <;> simp [h]
  all_goals exact nofun

/-- Settles O11: the fetch and the decoder only fault, and `exec` refuses nothing. -/
theorem noStepIsRefused : Obligations.NoStepIsRefused := by
  intro s r
  obtain ⟨_, -, h⟩ | ⟨-, h | ⟨_, h⟩ | ⟨i, h⟩⟩ := step_cases s
  case inr.inr.inr => exact h ▸ exec_ne_refused i s.advancePc r
  all_goals simp [h]

/-- Settles O12: eight instructions fault where their condition fails, and the rest answer a next state. -/
theorem faultsOfInstructions : Obligations.FaultsOfInstructions := by
  intro i s p r hp
  cases i
  case call nnn =>
    rw [(call_faultsUnless nnn s).fault_iff, instrAddr_eq hp]
    simp
    omega
  case ret =>
    rw [(ret_faultsUnless s).fault_iff, instrAddr_eq hp]
    simp
  case drw x y n =>
    simp [(drw_faultsUnless x y n s).fault_iff]
    omega
  case bcd x =>
    simp [(bcd_faultsUnless x s).fault_iff]
    omega
  case storeRegs x => simp [(storeRegs_faultsUnless x s).fault_iff]
  case loadRegs x => simp [(loadRegs_faultsUnless x s).fault_iff]
  case skp x => simp [(skp_faultsUnless x s).fault_iff]
  case sknp x => simp [(sknp_faultsUnless x s).fault_iff]
  case ldRegKey x =>
    obtain ⟨-, h⟩ | ⟨k, -, h⟩ := ldRegKey_cases x s <;> simp [h]
  all_goals exact ⟨nofun, by simp⟩

/-! ### Frames -/

/-- Settles O45, by the update that each instruction answers. -/
theorem onlyListedPartsWritten : Obligations.OnlyListedPartsWritten := by
  intro i s t h
  cases i
  case nop =>
    cases h
    exact onlyChanges_refl _ s
  case cls =>
    cases h
    exact onlyChanges_setScreen List.mem_cons_self s _
  case jp | jpV0 =>
    cases h
    exact onlyChanges_setPc List.mem_cons_self s _
  case seImm | sneImm | seReg | sneReg =>
    cases h
    exact onlyChanges_skipIf _ s
  case ldImm | addImm | ldReg | orReg | andReg | xorReg | ldRegDt =>
    cases h
    exact onlyChanges_setReg List.mem_cons_self s _ _
  case addReg | subReg | shr | subnReg | shl =>
    cases h
    exact onlyChanges_setResultThenFlag List.mem_cons_self s _ _ _
  case rnd x nn =>
    cases h
    exact onlyChanges_rnd s x _
  case ldI | addI | ldFont =>
    cases h
    exact onlyChanges_setI List.mem_cons_self s _
  case ldDtReg =>
    cases h
    exact onlyChanges_setDt List.mem_cons_self s _
  case ldStReg =>
    cases h
    exact onlyChanges_setSt List.mem_cons_self s _
  case call nnn =>
    obtain ⟨-, rfl⟩ := (call_faultsUnless nnn s).next_iff.1 h
    exact onlyChanges_trans (parts := [.pc, .stack]) (onlyChanges_stack (by decide) s _ _)
      (onlyChanges_setPc (by decide) _ _)
  case ret =>
    obtain ⟨-, rfl⟩ := (ret_faultsUnless s).next_iff.1 h
    exact onlyChanges_trans (parts := [.pc, .stack]) (onlyChanges_stack (by decide) s s.stack _)
      (onlyChanges_setPc (by decide) _ _)
  case drw x y n =>
    obtain ⟨-, rfl⟩ := (drw_faultsUnless x y n s).next_iff.1 h
    exact onlyChanges_afterDraw s x y n
  case bcd x =>
    obtain ⟨-, rfl⟩ := (bcd_faultsUnless x s).next_iff.1 h
    exact onlyChanges_setMem List.mem_cons_self s _
  case storeRegs x =>
    obtain ⟨-, rfl⟩ := (storeRegs_faultsUnless x s).next_iff.1 h
    exact onlyChanges_setMem List.mem_cons_self s _
  case loadRegs x =>
    obtain ⟨-, rfl⟩ := (loadRegs_faultsUnless x s).next_iff.1 h
    exact onlyChanges_setRegs List.mem_cons_self s _
  case skp x =>
    obtain ⟨-, rfl⟩ := (skp_faultsUnless x s).next_iff.1 h
    exact onlyChanges_skipIf _ s
  case sknp x =>
    obtain ⟨-, rfl⟩ := (sknp_faultsUnless x s).next_iff.1 h
    exact onlyChanges_skipIf _ s
  case ldRegKey x =>
    obtain ⟨-, h'⟩ | ⟨k, -, h'⟩ := ldRegKey_cases x s
    · cases h'.symm.trans h
      exact onlyChanges_setPc (parts := [.regs, .pc]) (by decide) s _
    · cases h'.symm.trans h
      exact onlyChanges_setReg (parts := [.regs, .pc]) (by decide) s x _

/-- Settles O44: an instruction that lists no register keeps them all, the others answer register writes. -/
theorem onlyListedRegistersWritten : Obligations.OnlyListedRegistersWritten := by
  intro i s t h r hr
  cases i
  case ldImm | addImm | ldReg | orReg | andReg | xorReg | ldRegDt | rnd =>
    cases h
    exact reg_setReg_ne _ (beq_eq_false_iff_ne.1 hr) _
  case addReg x _ | subReg x _ | shr x _ | subnReg x _ | shl x _ =>
    cases h
    exact onlyRegs_setResultThenFlag s x _ _ r (by simpa [Instr.writesReg] using hr)
  case drw x y n =>
    obtain ⟨-, rfl⟩ := (drw_faultsUnless x y n s).next_iff.1 h
    exact onlyRegs_afterDraw s x y n r (by simpa [Instr.writesReg] using hr)
  case loadRegs x =>
    obtain ⟨-, rfl⟩ := (loadRegs_faultsUnless x s).next_iff.1 h
    exact reg_afterLoadRegs_above (by simpa [Instr.writesReg] using hr) s
  case ldRegKey x =>
    obtain ⟨-, h'⟩ | ⟨k, -, h'⟩ := ldRegKey_cases x s
    · cases h'.symm.trans h
      rfl
    · cases h'.symm.trans h
      exact reg_setReg_ne _ (beq_eq_false_iff_ne.1 hr) _
  all_goals exact onlyListedPartsWritten _ s t h .regs (by simp [Instr.writesParts]) r

end Sys2Proof.Machine
end

section
/-! PROOFS. What no instruction reads: the sound timer (spec/44_input_timers.md R860) and the stack slots not in use
(spec/10_state.md R111). -/

namespace Sys2Proof.Machine

/-! ### Who writes the sound timer and the stack -/

theorem eq_ldStReg_of_st_mem {i : Instr} (h : .st ∈ i.writesParts) : ∃ x, i = .ldStReg x := by
  cases i
  case ldStReg x => exact ⟨x, rfl⟩
  all_goals simp [Instr.writesParts] at h

theorem eq_call_or_ret_of_stack_mem {i : Instr} (h : .stack ∈ i.writesParts) :
    (∃ nnn, i = .call nnn) ∨ i = .ret := by
  cases i
  case call nnn => exact .inl ⟨nnn, rfl⟩
  case ret => exact .inr rfl
  all_goals simp [Instr.writesParts] at h

/-! ### Two runs of one instruction -/

/-- An answer with its next state, if any, changed by `f`. -/
def mapNext (f : State → State) : Result → Result
  | .next s => .next (f s)
  | .fault r => .fault r
  | .refused r => .refused r

theorem of_eq_mapNext {res res' : Result} {f : State → State} (h : res' = mapNext f res) :
    (∀ r, res = .fault r → res' = .fault r) ∧ ∀ t, res = .next t → res' = .next (f t) :=
  ⟨fun r hr => by rw [h, hr, mapNext], fun t ht => by rw [h, ht, mapNext]⟩

/-- Two runs that complete under the same condition, the next state of one being `f` of the other's. -/
theorem FaultsUnless.eq_mapNext {res res' : Result} {c : Prop} {u : c → State} {r₀ : Fault} {f : State → State}
    (h' : FaultsUnless res' c (fun hc => f (u hc)) r₀) (h : FaultsUnless res c u r₀) : res' = mapNext f res := by
  by_cases hc : c
  · rw [h.next hc, h'.next hc, mapNext]
  · rw [h.fault hc, h'.fault hc, mapNext]

/-- The sound timer and the stack's slots replaced: what most instructions neither read nor write. -/
def State.withUnread (s : State) (st : Byte) (slots : Vector Word 16) : State := { s with st := st, stack := slots }

theorem skipIf_withUnread (s : State) (st : Byte) (slots : Vector Word 16) (c : Bool) :
    (s.withUnread st slots).skipIf c = (s.skipIf c).withUnread st slots := by
  cases c <;> rfl

/-- An instruction that writes neither the sound timer nor the stack does the same whatever the timer and the slots
hold, and keeps them. -/
theorem exec_withUnread {i : Instr} (hst : .st ∉ i.writesParts) (hstack : .stack ∉ i.writesParts)
    (s : State) (st : Byte) (slots : Vector Word 16) :
    exec i (s.withUnread st slots) = mapNext (·.withUnread st slots) (exec i s) := by
  cases i
  case ldStReg | call | ret => simp [Instr.writesParts] at hst hstack
  case seImm | sneImm | seReg | sneReg => exact congrArg _ (skipIf_withUnread s st slots _)
  case drw x y n => exact (drw_faultsUnless x y n (s.withUnread st slots)).eq_mapNext (drw_faultsUnless x y n s)
  case bcd x => exact (bcd_faultsUnless x (s.withUnread st slots)).eq_mapNext (bcd_faultsUnless x s)
  case storeRegs x => exact (storeRegs_faultsUnless x (s.withUnread st slots)).eq_mapNext (storeRegs_faultsUnless x s)
  case loadRegs x => exact (loadRegs_faultsUnless x (s.withUnread st slots)).eq_mapNext (loadRegs_faultsUnless x s)
  case skp x =>
    have h := skp_faultsUnless x (s.withUnread st slots)
    simp only [skipIf_withUnread] at h
    exact h.eq_mapNext (skp_faultsUnless x s)
  case sknp x =>
    have h := sknp_faultsUnless x (s.withUnread st slots)
    simp only [skipIf_withUnread] at h
    exact h.eq_mapNext (sknp_faultsUnless x s)
  case ldRegKey x =>
    have hkey : (s.withUnread st slots).lowestKey = s.lowestKey := rfl
    simp only [exec, execLdRegKey, hkey]
    cases s.lowestKey <;> rfl
  all_goals rfl

/-! ### The sound timer -/

/-- Settles O46: FX18 cannot fault; a call and a return name no timer; the rest is `exec_withUnread` with the slots as
they are. -/
theorem soundTimerIsNotRead : Obligations.SoundTimerIsNotRead := by
  intro i s v
  by_cases hst : .st ∈ i.writesParts
  case pos =>
    obtain ⟨x, rfl⟩ := eq_ldStReg_of_st_mem hst
    exact ⟨nofun, fun t _ hne => absurd rfl (hne x)⟩
  by_cases hstack : .stack ∈ i.writesParts
  case pos =>
    have hmap : exec i (s.setSt v) = mapNext (·.setSt v) (exec i s) := by
      obtain ⟨nnn, rfl⟩ | rfl := eq_call_or_ret_of_stack_mem hstack
      · exact (call_faultsUnless nnn (s.setSt v)).eq_mapNext (call_faultsUnless nnn s)
      · exact (ret_faultsUnless (s.setSt v)).eq_mapNext (ret_faultsUnless s)
    obtain ⟨hfault, hnext⟩ := of_eq_mapNext hmap
    exact ⟨hfault, fun t ht _ => hnext t ht⟩
  case neg =>
    obtain ⟨hfault, hnext⟩ := of_eq_mapNext (exec_withUnread hst hstack s v s.stack)
    refine ⟨hfault, fun t ht _ => (hnext t ht).trans ?_⟩
    obtain ⟨hslots, -⟩ := onlyListedPartsWritten i s t ht .stack hstack
    rw [← hslots]
    rfl

/-! ### Stale stack slots -/

/-- Slots that agree below `sp`, put in place of a state's own. -/
theorem sameButStaleSlots_of {t : State} {slots : Vector Word 16}
    (h : ∀ k : Fin 16, k.val < t.sp.val → slots[k.val] = t.stack[k.val]) :
    sameButStaleSlots t { t with stack := slots } :=
  ⟨⟨slots, rfl⟩, h⟩

/-- A call writes slot `sp` of both states, which is in use from then on. -/
theorem call_staleSlots {nnn : Addr12} {s t : State} {slots : Vector Word 16}
    (hslots : ∀ k : Fin 16, k.val < s.sp.val → slots[k.val] = s.stack[k.val]) (ht : exec (.call nnn) s = .next t) :
    ∃ t', exec (.call nnn) { s with stack := slots } = .next t' ∧ sameButStaleSlots t t' := by
  obtain ⟨hsp, rfl⟩ := (call_faultsUnless nnn s).next_iff.1 ht
  refine ⟨_, (call_faultsUnless nnn { s with stack := slots }).next hsp, sameButStaleSlots_of fun k hk => ?_⟩
  have hk' : k.val < s.sp.val + 1 := hk
  simp only [setPc_stack, Vector.getElem_set]
  split
  · rfl
  · exact hslots k (by omega)

/-- A return reads slot `sp - 1`, which both states have in use. -/
theorem ret_staleSlots {s t : State} {slots : Vector Word 16}
    (hslots : ∀ k : Fin 16, k.val < s.sp.val → slots[k.val] = s.stack[k.val]) (ht : exec .ret s = .next t) :
    ∃ t', exec .ret { s with stack := slots } = .next t' ∧ sameButStaleSlots t t' := by
  obtain ⟨hsp, rfl⟩ := (ret_faultsUnless s).next_iff.1 ht
  have htop : slots[s.sp.val - 1] = s.stack[s.sp.val - 1] :=
    hslots ⟨s.sp.val - 1, by omega⟩ (show s.sp.val - 1 < s.sp.val by omega)
  refine ⟨_, (ret_faultsUnless { s with stack := slots }).next hsp, ?_⟩
  simp only [htop]
  refine sameButStaleSlots_of fun k hk => hslots k ?_
  have hk' : k.val < s.sp.val - 1 := hk
  omega

/-- Settles O47: a fault depends on `sp` and not on a slot; a next state differs from its twin in the slots alone. -/
theorem staleSlotsAreNotRead : Obligations.StaleSlotsAreNotRead := by
  rintro i s s' ⟨⟨slots, rfl⟩, hslots⟩
  by_cases hstack : .stack ∈ i.writesParts
  case pos =>
    obtain ⟨nnn, rfl⟩ | rfl := eq_call_or_ret_of_stack_mem hstack
    · refine ⟨fun r hr => ?_, fun t ht => call_staleSlots hslots ht⟩
      exact (call_faultsUnless nnn { s with stack := slots }).fault_iff.2 ((call_faultsUnless nnn s).fault_iff.1 hr)
    · refine ⟨fun r hr => ?_, fun t ht => ret_staleSlots hslots ht⟩
      exact (ret_faultsUnless { s with stack := slots }).fault_iff.2 ((ret_faultsUnless s).fault_iff.1 hr)
  by_cases hst : .st ∈ i.writesParts
  case pos =>
    obtain ⟨x, rfl⟩ := eq_ldStReg_of_st_mem hst
    refine ⟨nofun, fun t ht => ⟨_, rfl, ?_⟩⟩
    cases ht
    exact sameButStaleSlots_of hslots
  case neg =>
    obtain ⟨hfault, hnext⟩ := of_eq_mapNext (exec_withUnread hst hstack s s.st slots)
    refine ⟨hfault, fun t ht => ⟨_, hnext t ht, ?_⟩⟩
    have hsound : t.st = s.st := onlyListedPartsWritten i s t ht .st hst
    obtain ⟨hkept, hsp⟩ := onlyListedPartsWritten i s t ht .stack hstack
    rw [← hsound]
    exact sameButStaleSlots_of (by rwa [hkept, hsp])

end Sys2Proof.Machine
end

section
/-! PROOFS. A return after a call (spec/40_control_flow.md R410, R430), and the same sprite drawn twice
(spec/43_display.md R726). -/

namespace Sys2Proof.Machine

/-- Settles O18: the call put the advanced `pc` in slot `sp` and the return takes it from there. -/
theorem returnUndoesCall : Obligations.ReturnUndoesCall := by
  intro nnn s t u hcall hslots hsp
  obtain ⟨hfree, rfl⟩ := (call_faultsUnless nnn s).next_iff.1 hcall
  have hslots' : u.stack = s.stack.set s.sp.val s.pc := hslots
  have hsp' : u.sp.val = s.sp.val + 1 := congrArg Fin.val hsp
  refine ⟨_, (ret_faultsUnless u).next (by omega), ?pc, ?pointer, ?others⟩
  case pc => simp [hslots', hsp']
  case pointer => exact Fin.ext (by simp [hsp'])
  case others =>
    intro k hk
    simp only [setPc_stack, hslots']
    exact Vector.getElem_set_ne _ _ (by omega)

/-! ### The second draw -/

theorem afterDraw_cell (s : State) (x y : Reg) (n : Nibble) (k : Fin 2048) :
    Screen.cell (s.afterDraw x y n).fb k =
      if k ∈ s.drawnCells x y n then !Screen.cell s.fb k else Screen.cell s.fb k :=
  plotAll_cell (drawnCells_nodup s x y n) (s.fb, false) k

/-- A draw with neither coordinate in VF leaves the sprite where it is: its registers, I and its rows are kept. -/
theorem drawnCells_afterDraw {x y : Reg} (hx : x ≠ 15) (hy : y ≠ 15) (s : State) (n : Nibble) :
    (s.afterDraw x y n).drawnCells x y n = s.drawnCells x y n := by
  have hregs (r : Reg) (hr : r ≠ 15) : (s.afterDraw x y n).reg r = s.reg r :=
    onlyRegs_afterDraw s x y n r (by simpa using hr)
  simp only [State.drawnCells, hregs x hx, hregs y hy]
  rfl

/-- Toggling the same cells twice gives the screen back. -/
theorem afterDraw_afterDraw_fb {x y : Reg} (hx : x ≠ 15) (hy : y ≠ 15) (s : State) (n : Nibble) :
    ((s.afterDraw x y n).afterDraw x y n).fb = s.fb := by
  refine screen_ext fun k => ?_
  rw [afterDraw_cell, afterDraw_cell, drawnCells_afterDraw hx hy]
  split <;> simp

/-- The second draw meets a lit cell exactly where the first found a covered cell off. -/
theorem afterDraw_collision_iff {x y : Reg} (hx : x ≠ 15) (hy : y ≠ 15) (s : State) (n : Nibble) :
    (∃ cx cy, (s.afterDraw x y n).cell cx cy = true ∧ (s.afterDraw x y n).spriteCovers x y n cx cy) ↔
      ∃ cx cy, s.cell cx cy = false ∧ s.spriteCovers x y n cx cy := by
  refine exists_congr fun cx => exists_congr fun cy => ?_
  rw [← cellNumber_mem_drawnCells, ← cellNumber_mem_drawnCells, drawnCells_afterDraw hx hy]
  refine and_congr_left fun hmem => ?_
  rw [cell_eq_cellNumber, cell_eq_cellNumber, afterDraw_cell, if_pos hmem, Bool.not_eq_true']

/-- Settles O38: `pc` apart, the second draw starts where the first ended. -/
theorem secondDrawErases : Obligations.SecondDrawErases := by
  intro x y n s t u hx hy hfirst hu
  obtain ⟨hfits, rfl⟩ := (drw_faultsUnless x y n s).next_iff.1 hfirst
  rw [hu]
  have hcollision := afterDraw_collision_iff hx hy s n
  refine ⟨_, (drw_faultsUnless x y n _).next hfits, afterDraw_afterDraw_fb hx hy s n,
    fun hlit => ?lit, fun hnone => ?none⟩
  case lit => exact afterDraw_vf_of_collision (s := s.afterDraw x y n) (hcollision.2 hlit)
  case none => exact afterDraw_vf_of_no_collision (s := s.afterDraw x y n) (mt hcollision.1 hnone)

end Sys2Proof.Machine
end

section
/-! PROOFS. What the fetch finds in memory (spec/20_memory.md R204, R208, R213; spec/30_encoding.md R320 to R323). -/

namespace Sys2Proof.Machine

/-! ### A word placed at `pc` (log 24) -/

theorem withFetchWord_pc_toNat_le (s : State) (nbits w : Nat) : (s.withFetchWord nbits w).pc.toNat ≤ 4094 := by
  unfold State.withFetchWord
  dsimp only
  split
  · assumption
  · decide

theorem withFetchWord_mem (s : State) (w : Word) :
    (s.withFetchWord 16 w.toNat).mem =
      s.mem.writeAll (s.withFetchWord 16 w.toNat).pc.toNat [highByte w, lowByte w] := by
  have hw : BitVec.ofNat 16 (w.toNat % 2 ^ 16) = w := by
    rw [Nat.mod_eq_of_lt w.isLt, BitVec.ofNat_toNat, BitVec.setWidth_eq]
  simp only [State.withFetchWord, hw]

theorem fetchWord_withFetchWord {s : State} (h : s.mem.wf = true) (w : Word) :
    fetchWord (s.withFetchWord 16 w.toNat) = .ok w := by
  have hp := withFetchWord_pc_toNat_le s 16 w.toNat
  have hfits : (s.withFetchWord 16 w.toNat).pc.toNat + [highByte w, lowByte w].length ≤ 4096 :=
    Nat.add_le_add_right hp 2
  have hhigh := read_writeAll_inside h hfits (k := 0) (Nat.succ_pos 1)
  have hlow := read_writeAll_inside h hfits (k := 1) (Nat.lt_succ_self 1)
  rw [fetchWord_ok hp, withFetchWord_mem, hlow]
  exact congrArg _ ((congrArg (joinBytes · _) hhigh).trans (joinBytes_high_low w))

/-- Settles O10, with the `pc` of `withFetchWord` for `p`. -/
theorem placedInstructionRuns : Obligations.PlacedInstructionRuns := by
  intro s i hwf
  have hp := withFetchWord_pc_toNat_le s 16 (encodeWord i).toNat
  refine ⟨(s.withFetchWord 16 (encodeWord i).toNat).pc, fun h => if_pos h, fun h => ?_, ?runs, ?bytes⟩
  · exact congrArg BitVec.toNat (if_neg (show ¬s.pc.toNat ≤ 4094 by omega))
  case runs => exact step_of_fetchWord_ok rfl (fetchWord_withFetchWord hwf (encodeWord i)) (decodeWord_encodeWord i)
  case bytes =>
    intro b hb
    rw [withFetchWord_mem]
    exact read_writeAll_outside hwf (Nat.add_le_add_right hp 2) hb

/-! ### Stored bytes -/

/-- A fetch from another memory, its two bytes given by their values. -/
theorem fetchWord_setMem {s : State} (hp : s.pc.toNat ≤ 4094) {m : Memory} {hi lo : Nat}
    (hhi : (m.read s.pc.toNat).toNat = hi) (hlo : (m.read (s.pc.toNat + 1)).toNat = lo) :
    fetchWord (s.setMem m) = .ok (BitVec.ofNat 16 (hi * 256 + lo)) := by
  rw [fetchWord_ok (s := s.setMem m) hp, joinBytes, setMem_mem, setMem_pc, hhi, hlo]

/-- Byte `b` after a string of bytes was written: the string's inside it, the old one outside. -/
theorem read_writeAll_dite {m : Memory} (h : m.wf = true) {a : Nat} {bs : List Byte} (ha : a + bs.length ≤ 4096)
    (b : Nat) : (m.writeAll a bs).read b = if hb : a ≤ b ∧ b < a + bs.length then bs[b - a] else m.read b := by
  split
  case isTrue hb =>
    have hinside := read_writeAll_inside h ha (show b - a < bs.length by omega)
    rwa [Nat.add_sub_cancel' hb.1] at hinside
  case isFalse hb => exact read_writeAll_outside h ha hb

theorem command_load {image : List Byte} (h : image.length ≤ 3584) (s : State) :
    command (.load image) s = (s.loadImage image, .ok) :=
  if_pos (decide_eq_true h)

theorem command_load_tooLarge {image : List Byte} (h : 3584 < image.length) (s : State) :
    command (.load image) s = (s, .loadTooLarge) :=
  if_neg (by simpa [imageFits] using h)

/-- Settles O34: after each of the three, memory is the old one with a string of bytes written. -/
theorem storedBytesAreFetched : Obligations.StoredBytesAreFetched := by
  intro x image s hwf hp
  refine ⟨?store, ?bcd, ?load⟩
  case store =>
    intro hfits byte
    have hfits' : s.dataAddr + (s.regsUpTo x).length ≤ 4096 := by rwa [regsUpTo_length]
    have stored (a : Nat) : (s.mem.writeAll s.dataAddr (s.regsUpTo x)).read a = byte a := by
      rw [read_writeAll_dite hwf hfits']
      simp only [regsUpTo_length, byte]
      split
      · exact (List.getElem_eq_iff _).2
          (regsUpTo_get s x ⟨a - s.dataAddr, by omega⟩ (show a - s.dataAddr ≤ x.val by omega))
      · rfl
    refine ⟨_, (storeRegs_faultsUnless x s).next hfits, ?_⟩
    exact fetchWord_setMem hp (congrArg _ (stored _)) (congrArg _ (stored _))
  case bcd =>
    intro hfits byte
    obtain ⟨t, ht, hundreds, tens, ones, others, -⟩ := (bcdResult x s hwf).1 hfits
    obtain ⟨-, rfl⟩ := (bcd_faultsUnless x s).next_iff.1 ht
    have stored (a : Nat) : ((s.mem.writeAll s.dataAddr (digits (s.reg x))).read a).toNat = byte a := by
      simp only [byte]
      split_ifs with h₀ h₁ h₂
      · exact h₀ ▸ hundreds
      · exact h₁ ▸ tens
      · exact h₂ ▸ ones
      · exact congrArg _ (others a (by omega))
    exact ⟨_, ht, fetchWord_setMem hp (stored _) (stored _)⟩
  case load =>
    intro hfits byte
    rw [command_load hfits]
    have stored (a : Nat) : (s.mem.writeAll 0x200 image).read a = byte a :=
      read_writeAll_dite hwf (Nat.add_le_add_left hfits 0x200) a
    exact fetchWord_setMem hp (congrArg _ (stored _)) (congrArg _ (stored _))

/-! ### Runs -/

/-- Settles O41: the STEP at the FX0A moves `pc` on and back again, so it answers the state itself. -/
theorem waitingSpinsInPlace : Obligations.WaitingSpinsInPlace := by
  intro x s n hf hp hkey hd
  have hspin : step s = .next s := by
    rw [stepRunsDecodedInstruction s _ hf hp hd, exec_ldRegKey_noKey x (s := { s with pc := s.pc + 2 }) hkey,
      instrAddr_eq rfl]
    rfl
  induction n with
  | zero => rfl
  | succ n ih => rw [run_next hspin, ih]

/-- A STEP at two zero bytes moves `pc` on and does nothing else. -/
theorem step_of_zero {s : State} (hf : s.fault = none) (hp : s.pc.toNat ≤ 4094)
    (hz : ∀ a, s.pc.toNat ≤ a → s.mem.read a = 0) : step s = .next { s with pc := s.pc + 2 } := by
  refine stepRunsDecodedInstruction s .nop hf hp ?_
  rw [hz _ (Nat.le_refl _), hz _ (Nat.le_succ _)]
  rfl

/-- Settles O43, by induction on the number of STEPs: the next one starts 2 further on, in the same memory. -/
theorem zeroMemoryRunsToTheEnd : Obligations.ZeroMemoryRunsToTheEnd := by
  intro s n hf hn hz
  induction n generalizing s with
  | zero =>
    have hpc : BitVec.ofNat 16 (s.pc.toNat + 2 * 0) = s.pc := by simp
    rw [hpc]
    refine ⟨rfl, fun hend => run_fault ?_ 0⟩
    rw [← hend]
    exact fetchPastTheEndFaults s hf (by omega)
  | succ n ih =>
    have hstep := step_of_zero hf (by omega) hz
    have hpc : (s.pc + 2).toNat = s.pc.toNat + 2 := by
      rw [BitVec.toNat_add]
      exact Nat.mod_eq_of_lt (show s.pc.toNat + 2 < 65536 by omega)
    obtain ⟨hrun, hend⟩ := ih { s with pc := s.pc + 2 } hf (by simp only [hpc]; omega)
      (fun a ha => hz a (by simp only [hpc] at ha; omega))
    simp only [hpc] at hrun hend
    rw [run_next hstep, run_next hstep, hrun]
    refine ⟨?_, fun h => hend (by omega)⟩
    rw [show s.pc.toNat + 2 + 2 * n = s.pc.toNat + 2 * (n + 1) by omega]

end Sys2Proof.Machine
end

section
/-! PROOFS. The host's commands (spec/60_exceptions.md R910 to R936, spec/70_reset_and_hazards.md R1000). -/

namespace Sys2Proof.Machine

/-! ### TICK, SET_KEY, READ_DISPLAY, LOAD, RESET -/

/-- A countdown saturates at 0 (R920). -/
theorem countDown_toNat (t : Byte) : (countDown t).toNat = t.toNat - 1 := by
  unfold countDown
  split
  case isTrue h => rw [h]; rfl
  case isFalse h =>
    have hpos : t.toNat ≠ 0 := fun h0 => h (BitVec.eq_of_toNat_eq h0)
    rw [BitVec.toNat_sub]
    show (256 - 1 + t.toNat) % 256 = _
    omega

/-- Settles O48: both timers by `countDown_toNat`; `tone_active` reads the new sound timer, `sound_edge` the old. -/
theorem tickResult : Obligations.TickResult := by
  intro s
  refine ⟨s.tick, rfl, countDown_toNat s.dt, countDown_toNat s.st, ?edge, ?tone, ?frame⟩
  case edge =>
    show (s.st == 1) = true ↔ _
    rw [beq_iff_eq, ← BitVec.toNat_inj]
    rfl
  case tone =>
    show (countDown s.st != 0) = true ↔ _
    rw [bne_iff_ne, ne_eq, ← BitVec.toNat_inj, countDown_toNat]
    show ¬s.st.toNat - 1 = 0 ↔ _
    omega
  case frame =>
    intro p hp
    cases p
    case dt | st | soundEdge => simp at hp
    all_goals simp [Part.same, State.tick, State.reg]

/-- Settles O49: SET_KEY is one update of the latch, READ_DISPLAY lists the cells in the order of their numbers. -/
theorem keyAndDisplayCommands : Obligations.KeyAndDisplayCommands := by
  intro s k b
  refine ⟨⟨s.setKey k b, rfl, ?set, ?others, ?frame⟩, s.readDisplay, rfl, ?cells⟩
  case set => exact Vector.getElem_set_self _
  case others => exact fun j hj => Vector.getElem_set_ne k.isLt j.isLt fun h => hj (Fin.ext h.symm)
  case frame =>
    intro p hp
    cases p
    case key => simp at hp
    all_goals simp [Part.same, State.setKey, State.reg]
  case cells => exact fun cx cy => Vector.getElem_ofFn _

/-- Settles O50: an image that fits is one string of bytes written at 0x200. -/
theorem loadCommand : Obligations.LoadCommand := by
  intro s image hwf
  refine ⟨fun hlarge => command_load_tooLarge hlarge s, fun hfits => ?_⟩
  have hroom : Config.progBase + image.length ≤ 4096 := Nat.add_le_add_left hfits 0x200
  refine ⟨_, command_load hfits s, ?copied, onlyBytes_setMem_writeAll hwf hroom,
    onlyChanges_setMem List.mem_cons_self s _⟩
  case copied =>
    intro k v hv
    obtain ⟨hk, rfl⟩ := List.getElem?_eq_some_iff.1 hv
    exact read_writeAll_inside hwf hroom hk

/-- Settles O51: RESET gives the construct-time state but for the count of free values, which R140 does not list. -/
theorem resetValues : Obligations.ResetValues := by
  intro t ht
  obtain ⟨n, rfl⟩ : ∃ n, t = { State.reset with freeCount := n } := by
    obtain rfl | ⟨s, rfl⟩ := ht
    · exact ⟨0, rfl⟩
    · exact ⟨s.freeCount, rfl⟩
  refine ⟨fun a => dif_pos a.isLt, fun a ha => dif_neg (Nat.not_lt_of_le ha), fun r => ?_, rfl, rfl, fun k => ?_, rfl,
    rfl, rfl, fun cx cy => ?_, fun k => ?_, rfl, rfl⟩
  · exact Vector.getElem_replicate _
  · exact Vector.getElem_replicate _
  · exact cell_clear _
  · exact Vector.getElem_replicate _

/-! ### A fault stops the machine (R910, R911) -/

theorem stepCommand_of_faulted {s : State} {r : Fault} (h : s.fault = some r) : command .step s = (s, .fault r) := by
  simp only [command, State.stepCommand, step_of_faulted h, h]

theorem stepCommand_of_fault {s : State} {r : Fault} (hf : s.fault = none) (h : step s = .fault r) :
    command .step s = (s.afterFault r, .fault r) := by
  simp only [command, State.stepCommand, h, hf]

theorem stepCommand_of_next {s t : State} (h : step s = .next t) : command .step s = (t, .ok) := by
  simp only [command, State.stepCommand, h]

/-- No command but RESET moves the fault status of a faulted machine. -/
theorem command_fault {c : Command} (hc : c ≠ .reset) {s : State} {r : Fault} (h : s.fault = some r) :
    (command c s).1.fault = some r := by
  cases c
  case step => rwa [stepCommand_of_faulted h]
  case load image =>
    obtain hfits | hlarge := le_or_gt image.length 3584
    · rwa [command_load hfits]
    · rwa [command_load_tooLarge hlarge]
  case reset => exact absurd rfl hc
  case tick | setKey | readDisplay => exact h

theorem runCommands_fault {cs : List Command} (hcs : .reset ∉ cs) {s : State} {r : Fault} (h : s.fault = some r) :
    (runCommands cs s).fault = some r := by
  induction cs generalizing s with
  | nil => exact h
  | cons c cs ih =>
    rw [List.mem_cons, not_or] at hcs
    exact ih hcs.2 (command_fault (Ne.symm hcs.1) h)

/-- Settles O52: the STEP command sets the status, and `runCommands_fault` keeps it. -/
theorem faultStopsTheMachine : Obligations.FaultStopsTheMachine := by
  refine ⟨fun s r hf hstep => ?faulting, fun s r h => ?faulted⟩
  case faulting =>
    rw [stepCommand_of_fault hf hstep]
    exact ⟨rfl, rfl⟩
  case faulted => exact ⟨stepCommand_of_faulted h, fun cs hcs => runCommands_fault hcs h, rfl⟩

end Sys2Proof.Machine
end

section
/-! PROOFS. Where a completed STEP leaves `pc` (spec/10_state.md R106, R108), and the invariants of good and of sound
states. -/

namespace Sys2Proof.Machine

/-! ### `pc` after a STEP -/

theorem advancePc_pc_toNat {s : State} (hp : s.pc.toNat ≤ 4094) : s.advancePc.pc.toNat = s.pc.toNat + 2 := by
  rw [advancePc_pc, BitVec.toNat_add]
  exact Nat.mod_eq_of_lt (show s.pc.toNat + 2 < 65536 by omega)

/-- Where a skip goes on, with no wrap. -/
theorem skipIf_advancePc_toNat {s : State} (hp : s.pc.toNat ≤ 4094) (c : Bool) :
    (s.advancePc.skipIf c).pc.toNat = if c then s.pc.toNat + 4 else s.pc.toNat + 2 := by
  rw [skipIf_pc]
  cases c
  case false => exact advancePc_pc_toNat hp
  case true =>
    rw [if_pos rfl, if_pos rfl, BitVec.toNat_add, advancePc_pc_toNat hp]
    exact Nat.mod_eq_of_lt (show s.pc.toNat + 4 < 65536 by omega)

theorem skipIf_not_advancePc_toNat {s : State} (hp : s.pc.toNat ≤ 4094) (c : Bool) :
    (s.advancePc.skipIf !c).pc.toNat = if c then s.pc.toNat + 2 else s.pc.toNat + 4 := by
  rw [skipIf_advancePc_toNat hp]
  cases c <;> rfl

/-- The instruction whose word is fetched is the one a completed STEP executes. -/
theorem exec_of_step_next {s t : State} {i : Instr} (hfetch : fetchWord s = .ok (encodeWord i))
    (hstep : step s = .next t) : s.pc.toNat ≤ 4094 ∧ exec i s.advancePc = .next t := by
  obtain ⟨-, hp, j, hj, hexec⟩ := step_next hstep
  rw [fetchWord_ok hp] at hfetch
  rw [Except.ok.inj hfetch, decodeWord_encodeWord, Option.some.injEq] at hj
  exact ⟨hp, hj ▸ hexec⟩

/-- Settles O57: the result of each instruction that writes `pc`, and the frame of each that does not. -/
theorem programCounterAfterStep : Obligations.ProgramCounterAfterStep := by
  intro s t i hfetch hstep p
  obtain ⟨hp, hexec⟩ := exec_of_step_next hfetch hstep
  cases i
  case jp nnn =>
    cases hexec
    exact zext16_toNat nnn
  case jpV0 nnn =>
    cases hexec
    exact zext16_add_byteToWord_toNat nnn (s.reg 0)
  case call nnn =>
    obtain ⟨-, rfl⟩ := (call_faultsUnless nnn _).next_iff.1 hexec
    exact zext16_toNat nnn
  case ret =>
    obtain ⟨hsp, rfl⟩ := (ret_faultsUnless _).next_iff.1 hexec
    exact ⟨⟨s.sp.val - 1, by omega⟩, (Nat.succ_pred_eq_of_pos hsp).symm, rfl⟩
  case seImm x nn =>
    cases hexec
    simpa using skipIf_advancePc_toNat hp (s.reg x == nn)
  case sneImm x nn =>
    cases hexec
    simpa using skipIf_not_advancePc_toNat hp (s.reg x == nn)
  case seReg x y =>
    cases hexec
    simpa using skipIf_advancePc_toNat hp (s.reg x == s.reg y)
  case sneReg x y =>
    cases hexec
    simpa using skipIf_not_advancePc_toNat hp (s.reg x == s.reg y)
  case skp x =>
    obtain ⟨hk, rfl⟩ := (skp_faultsUnless x _).next_iff.1 hexec
    exact ⟨⟨_, hk⟩, rfl, skipIf_advancePc_toNat hp _⟩
  case sknp x =>
    obtain ⟨hk, rfl⟩ := (sknp_faultsUnless x _).next_iff.1 hexec
    exact ⟨⟨_, hk⟩, rfl, skipIf_not_advancePc_toNat hp _⟩
  case ldRegKey x =>
    obtain ⟨hnone, h⟩ | ⟨k, hk, h⟩ := ldRegKey_cases x s.advancePc
    · cases h.symm.trans hexec
      exact ⟨fun _ => congrArg BitVec.toNat (instrAddr_eq rfl), fun hsome => absurd hnone hsome⟩
    · cases h.symm.trans hexec
      exact ⟨fun hnone => absurd (hnone k) (by simpa using hk), fun _ => advancePc_pc_toNat hp⟩
  all_goals
    have hpc := onlyListedPartsWritten _ _ _ hexec .pc (by simp [Instr.writesParts])
    exact (congrArg BitVec.toNat hpc).trans (advancePc_pc_toNat hp)

/-- Settles O56: the moves of `programCounterAfterStep`; a return goes where the invariant bounds the slots. -/
theorem programCounterNeverWraps : Obligations.ProgramCounterNeverWraps := by
  intro s t hinv hstep
  obtain ⟨-, hp, i, hi, -⟩ := step_next hstep
  have hfetch : fetchWord s = .ok (encodeWord i) := by rw [fetchWord_ok hp, encodeOfDecode _ i hi]
  have hpc := programCounterAfterStep s t i hfetch hstep
  refine ⟨hp, ?_⟩
  cases i
  case jp nnn =>
    have hpc' : t.pc.toNat = nnn.toNat := hpc
    exact .inr (.inr (.inr ⟨by omega, _, .inr ⟨nnn, .inl rfl⟩, hfetch⟩))
  case call nnn =>
    have hpc' : t.pc.toNat = nnn.toNat := hpc
    exact .inr (.inr (.inr ⟨by omega, _, .inr ⟨nnn, .inr (.inl rfl)⟩, hfetch⟩))
  case jpV0 nnn =>
    have hpc' : t.pc.toNat = nnn.toNat + (s.reg 0).toNat := hpc
    exact .inr (.inr (.inr ⟨by omega, _, .inr ⟨nnn, .inr (.inr rfl)⟩, hfetch⟩))
  case ret =>
    obtain ⟨k, hk, hslot⟩ := hpc
    obtain ⟨-, hle⟩ := hinv.returns k (by omega)
    rw [← hslot] at hle
    exact .inr (.inr (.inr ⟨by omega, _, .inl rfl, hfetch⟩))
  case seImm | sneImm | seReg | sneReg =>
    dsimp only at hpc
    split at hpc <;> omega
  case skp | sknp =>
    obtain ⟨k, -, hpc⟩ := hpc
    split at hpc <;> omega
  case ldRegKey x =>
    obtain ⟨hnone, hsome⟩ := hpc
    by_cases hkey : s.noKey
    · exact .inr (.inr (.inl (hnone hkey)))
    · exact .inl (hsome hkey)
  all_goals exact .inl hpc

/-! ### Good states -/

/-- All that an instruction can do to memory. -/
theorem exec_mem {i : Instr} {s t : State} (h : exec i s = .next t) :
    t.mem = s.mem ∨ ∃ bs : List Byte, s.dataAddr + bs.length ≤ 4096 ∧ t.mem = s.mem.writeAll s.dataAddr bs := by
  cases i
  case bcd x =>
    obtain ⟨hfits, rfl⟩ := (bcd_faultsUnless x s).next_iff.1 h
    exact .inr ⟨digits (s.reg x), hfits, rfl⟩
  case storeRegs x =>
    obtain ⟨hfits, rfl⟩ := (storeRegs_faultsUnless x s).next_iff.1 h
    exact .inr ⟨s.regsUpTo x, by rwa [regsUpTo_length], rfl⟩
  case call nnn =>
    obtain ⟨-, rfl⟩ := (call_faultsUnless nnn s).next_iff.1 h
    exact .inl rfl
  case ret =>
    obtain ⟨-, rfl⟩ := (ret_faultsUnless s).next_iff.1 h
    exact .inl rfl
  case drw x y n =>
    obtain ⟨-, rfl⟩ := (drw_faultsUnless x y n s).next_iff.1 h
    exact .inl rfl
  case loadRegs x =>
    obtain ⟨-, rfl⟩ := (loadRegs_faultsUnless x s).next_iff.1 h
    exact .inl rfl
  case skp x =>
    obtain ⟨-, rfl⟩ := (skp_faultsUnless x s).next_iff.1 h
    exact .inl (skipIf_mem _ s)
  case sknp x =>
    obtain ⟨-, rfl⟩ := (sknp_faultsUnless x s).next_iff.1 h
    exact .inl (skipIf_mem _ s)
  case ldRegKey x =>
    obtain ⟨-, h'⟩ | ⟨k, -, h'⟩ := ldRegKey_cases x s <;> cases h'.symm.trans h <;> exact .inl rfl
  case seImm | sneImm | seReg | sneReg =>
    cases h
    exact .inl (skipIf_mem _ s)
  all_goals
    cases h
    exact .inl rfl

theorem exec_mem_wf {i : Instr} {s t : State} (hwf : s.mem.wf = true) (h : exec i s = .next t) : t.mem.wf = true := by
  obtain hmem | ⟨bs, hfits, hmem⟩ := exec_mem h
  · rwa [hmem]
  · rw [hmem]
    exact Memory.wf_writeAll hwf hfits

/-- Every slot in use holds an address in 2 to 4096, if it did and the advanced `pc` is one: a call adds that, a return
takes a slot out of use, the rest keep the stack. -/
theorem exec_returns {i : Instr} {s t : State} (hpc : 2 ≤ s.pc.toNat ∧ s.pc.toNat ≤ 4096)
    (hs : ∀ k : Fin 16, k.val < s.sp.val → 2 ≤ s.stack[k.val].toNat ∧ s.stack[k.val].toNat ≤ 4096)
    (h : exec i s = .next t) (k : Fin 16) (hk : k.val < t.sp.val) :
    2 ≤ t.stack[k.val].toNat ∧ t.stack[k.val].toNat ≤ 4096 := by
  by_cases hstack : .stack ∈ i.writesParts
  case neg =>
    obtain ⟨hslots, hsp⟩ := onlyListedPartsWritten i s t h .stack hstack
    rw [hsp] at hk
    simpa only [hslots] using hs k hk
  case pos =>
    obtain ⟨nnn, rfl⟩ | rfl := eq_call_or_ret_of_stack_mem hstack
    · obtain ⟨hfree, rfl⟩ := (call_faultsUnless nnn s).next_iff.1 h
      have hk' : k.val < s.sp.val + 1 := hk
      simp only [setPc_stack, Vector.getElem_set]
      split
      · exact hpc
      · exact hs k (by omega)
    · obtain ⟨hused, rfl⟩ := (ret_faultsUnless s).next_iff.1 h
      have hk' : k.val < s.sp.val - 1 := hk
      exact hs k (by omega)

/-- Settles O53: memory by `exec_mem_wf`, `pc` by `programCounterNeverWraps`, the return addresses by `exec_returns`. -/
theorem stepKeepsInvariant : Obligations.StepKeepsInvariant := by
  intro s t hinv hstep
  obtain ⟨-, hp, i, -, hexec⟩ := step_next hstep
  have hadv := advancePc_pc_toNat hp
  have hreturn : 2 ≤ s.advancePc.pc.toNat ∧ s.advancePc.pc.toNat ≤ 4096 := by omega
  refine ⟨exec_mem_wf (s := s.advancePc) hinv.memory hexec, ?bound, exec_returns hreturn hinv.returns hexec⟩
  case bound =>
    obtain ⟨-, hpc | hpc | hpc | ⟨hpc, -⟩⟩ := programCounterNeverWraps s t hinv hstep <;> omega

/-! ### Sound states -/

/-- Settles O54: reset lists no byte, starts at 0x200 and has no slot in use. -/
theorem resetMeetsInvariant : Obligations.ResetMeetsInvariant := by
  have hinv : State.reset.Inv := ⟨reset_mem_wf, by decide, fun _ hk => absurd hk (Nat.not_lt_zero _)⟩
  exact ⟨hinv, reset_mem_wf, fun _ => hinv, nofun⟩

/-- The value an instruction's fault records is an address, or a byte (R901). -/
theorem exec_fault_info {i : Instr} {s : State} {r : Fault} (h : exec i s = .fault r) : r.info < 65536 := by
  have hp : s.pc = s.instrAddr + 2 := by simp [State.instrAddr]
  obtain ⟨_, _, _, rfl⟩ | ⟨_, _, rfl⟩ | ⟨_, rfl⟩ | ⟨x, _, _, rfl⟩ := (faultsOfInstructions i s _ r hp).1 h
  · exact s.instrAddr.isLt
  · exact s.instrAddr.isLt
  · exact max_lt s.I.isLt (by decide)
  · exact Nat.lt_trans (s.reg x).isLt (by decide)

/-- Every value a STEP's fault records is below 65536 (R130). -/
theorem step_fault_info {s : State} {r : Fault} (hf : s.fault = none) (h : step s = .fault r) : r.info < 65536 := by
  obtain ⟨_, hsome, -⟩ | ⟨-, hstep | ⟨w, hstep⟩ | ⟨i, hstep⟩⟩ := step_cases s
  · cases hf.symm.trans hsome
  · cases hstep.symm.trans h
    exact s.pc.isLt
  · cases hstep.symm.trans h
    exact w.isLt
  · exact exec_fault_info (hstep.symm.trans h)

theorem stepCommand_sound {s : State} (hs : s.Sound) : (command .step s).1.Sound := by
  cases hstep : step s with
  | next t =>
    obtain ⟨hf, -, i, -, hexec⟩ := step_next hstep
    have hinv := stepKeepsInvariant s t (hs.running hf) hstep
    have hnone : t.fault = none := by
      rw [onlyListedPartsWritten i _ t hexec .fault (by cases i <;> simp [Instr.writesParts])]
      exact hf
    rw [stepCommand_of_next hstep]
    exact ⟨hinv.memory, fun _ => hinv, fun r hr => by simp [hnone] at hr⟩
  | fault r =>
    cases hf : s.fault with
    | none =>
      rw [stepCommand_of_fault hf hstep]
      refine ⟨afterFault_mem_wf r s, nofun, ?_⟩
      rintro _ ⟨⟩
      exact step_fault_info hf hstep
    | some r' =>
      rw [stepCommand_of_faulted hf]
      exact hs
  | refused r => exact absurd hstep (noStepIsRefused s r)

theorem loadImage_sound {s : State} (hs : s.Sound) {image : List Byte} (h : image.length ≤ 3584) :
    (s.loadImage image).Sound := by
  have hwf : (s.loadImage image).mem.wf = true :=
    Memory.wf_writeAll hs.memory (Nat.add_le_add_left h 0x200)
  exact ⟨hwf, fun hf => ⟨hwf, (hs.running hf).pcBound, (hs.running hf).returns⟩, hs.recorded⟩

theorem command_sound (c : Command) {s : State} (hs : s.Sound) : (command c s).1.Sound := by
  cases c
  case step => exact stepCommand_sound hs
  case load image =>
    obtain hfits | hlarge := le_or_gt image.length 3584
    · rw [command_load hfits]
      exact loadImage_sound hs hfits
    · rw [command_load_tooLarge hlarge]
      exact hs
  case reset =>
    obtain ⟨hinv, -⟩ := resetMeetsInvariant
    exact ⟨reset_mem_wf, fun _ => ⟨hinv.memory, hinv.pcBound, hinv.returns⟩, nofun⟩
  case readDisplay => exact hs
  case tick | setKey =>
    exact ⟨hs.memory, fun hf => ⟨hs.memory, (hs.running hf).pcBound, (hs.running hf).returns⟩, hs.recorded⟩

/-- Settles O55, by induction on the list of commands. -/
theorem commandsKeepSoundness : Obligations.CommandsKeepSoundness := by
  intro cs
  induction cs with
  | nil => exact fun s hs => hs
  | cons c cs ih => exact fun s hs => ih _ (command_sound c hs)

end Sys2Proof.Machine
end
